-- ==== Sys2Proof/Word.lean ====
section
/-! DEFINITION. The words SCP handles: the 32-bit command word (30_encoding.md R60) and the byte (00_scope.md R7). -/

namespace Sys2Proof

/-- A command word `CW` as the host delivers it on the command port (R60): one 32-bit value, bit 0 least significant (R7). -/
abbrev Word := BitVec 32

/-- A byte is 8 bits (R7). -/
abbrev Byte := BitVec 8

end Sys2Proof
end

