-- ==== Sys2Proof/Syntax.lean ====
section
/-! DEFINITION. The twelve commands of the opcode map (30_encoding.md R64), one constructor per row, with the operands of R62. -/

namespace Sys2Proof

/-- One SCP command. Operand widths are those of 30_encoding.md R61 and R62, so only `calrd` can be ill-formed. -/
inductive Instr where
  /-- NOP (R120): `operand` is CW[27:0], ignored (R67); kept so that no bit of the word is lost (log entry 14). -/
  | nop (operand : BitVec 28)
  /-- CALWR (R80): write `byte` at staging index `idx`. -/
  | calwr (idx : BitVec 5) (byte : Byte)
  /-- CALCOMMIT (R82): unpack the staging image into the coefficient file. -/
  | calcommit
  /-- CALRD (R86): read coefficient `k` (0..17) into OUT0. -/
  | calrd (k : BitVec 5)
  /-- COMPT (R91): compensate a 20-bit temperature code. -/
  | compt (adc : BitVec 20)
  /-- COMPP (R100): compensate a 20-bit pressure code. -/
  | compp (adc : BitVec 20)
  /-- COMPH (R106): compensate a 16-bit humidity code. -/
  | comph (adc : BitVec 16)
  /-- COMPTR (R97): COMPT of the code in three burst bytes. -/
  | comptr (msb lsb xlsb : Byte)
  /-- COMPPR (R103): COMPP of the code in three burst bytes. -/
  | comppr (msb lsb xlsb : Byte)
  /-- COMPHR (R110): COMPH of the code in two burst bytes. -/
  | comphr (msb lsb : Byte)
  /-- TFWR (R121): write the signed 28-bit `imm` into T_FINE. -/
  | tfwr (imm : BitVec 28)
  /-- RESET (R122). -/
  | reset
  deriving DecidableEq, Repr

end Sys2Proof
end

