-- ==== Sys2Proof/WellFormed.lean ====
section
/-! DEFINITION. Which commands an encoding can spell: the operand types settle all but the index of CALRD. -/

namespace Sys2Proof

/-- Every operand of these types is legal (R80: "every IDX value is valid"), but CALRD's `k` must name a coefficient:
"Indices 18..31 name no register" (10_state.md R21; 30_encoding.md R66 ground 3). -/
def Instr.wellFormed : Instr → Bool
  | .nop _ => true
  | .calwr _ _ => true
  | .calcommit => true
  | .calrd k => decide (k.toNat ≤ 17)
  | .compt _ => true
  | .compp _ => true
  | .comph _ => true
  | .comptr _ _ _ => true
  | .comppr _ _ _ => true
  | .comphr _ _ => true
  | .tfwr _ => true
  | .reset => true

end Sys2Proof
end

