-- ==== Sys2Proof/Decode.lean ====
section
/-! DEFINITION. Decoding of a command word (30_encoding.md R61 to R67) and, after it, the encoder. -/

namespace Sys2Proof

/-- Why a word is illegal: the three grounds of 30_encoding.md R66. -/
inductive IllegalReason where
  /-- OP is one of 0xB..0xE (R66 ground 1). -/
  | reservedOpcode
  /-- A reserved-zero field of the word's format is not zero (R66 ground 2). -/
  | reservedZero
  /-- CALRD with CW[4:0] >= 18 (R66 ground 3). -/
  | coefficientIndex
  deriving DecidableEq, Repr

/-- `instr`, unless the reserved-zero field above bit `lo` (CW[27:lo]) is not zero (R61, R66 ground 2). -/
def zeroAbove (lo : Nat) (w : Word) (instr : Instr) : Except IllegalReason Instr :=
  if w.extractLsb' lo (28 - lo) = 0 then .ok instr else .error .reservedZero

/-- CALRD's last check: K <= 17 (R64, R66 ground 3). -/
def legalIndex (k : BitVec 5) : Except IllegalReason Instr :=
  if (Instr.calrd k).wellFormed then .ok (.calrd k) else .error .coefficientIndex

/-- The decoder, total on every word (R65): OP = CW[31:28] first, then the reserved-zero bits of that row's format, then, for
CALRD, K. -/
def decode (w : Word) : Except IllegalReason Instr :=
  match (w.extractLsb' 28 4).toNat with
  | 0x0 => .ok (.nop (w.extractLsb' 0 28))
  | 0x1 => zeroAbove 13 w (.calwr (w.extractLsb' 8 5) (w.extractLsb' 0 8))
  | 0x2 => zeroAbove 0 w .calcommit
  | 0x3 => zeroAbove 5 w (.calrd (w.extractLsb' 0 5)) >>= fun _ => legalIndex (w.extractLsb' 0 5)
  | 0x4 => zeroAbove 20 w (.compt (w.extractLsb' 0 20))
  | 0x5 => zeroAbove 20 w (.compp (w.extractLsb' 0 20))
  | 0x6 => zeroAbove 16 w (.comph (w.extractLsb' 0 16))
  | 0x7 => zeroAbove 24 w (.comptr (w.extractLsb' 16 8) (w.extractLsb' 8 8) (w.extractLsb' 0 8))
  | 0x8 => zeroAbove 24 w (.comppr (w.extractLsb' 16 8) (w.extractLsb' 8 8) (w.extractLsb' 0 8))
  | 0x9 => zeroAbove 16 w (.comphr (w.extractLsb' 8 8) (w.extractLsb' 0 8))
  | 0xA => .ok (.tfwr (w.extractLsb' 0 28))
  | 0xF => zeroAbove 0 w .reset
  | _ => .error .reservedOpcode

/-- The command the decoder reads from the word `w` of `nbits` bits, bits above `nbits` zero, numbered as spec/opcode_table.json
numbers them. Every command is one 32-bit word (R60), so a longer word is none. -/
def decodeTableWord (nbits w : Nat) : Option Instr :=
  if nbits ≤ 32 then
    match decode (BitVec.ofNat 32 (w % 2 ^ nbits)) with
    | .ok i => some i
    | .error _ => none
  else none

/-- The word of a command, field by field from the format table of 30_encoding.md R61 (most significant field first). -/
def encode : Instr → Word
  | .nop operand => 0x0#4 ++ operand
  | .calwr idx byte => 0x1#4 ++ 0#15 ++ idx ++ byte
  | .calcommit => 0x2#4 ++ 0#28
  | .calrd k => 0x3#4 ++ 0#23 ++ k
  | .compt adc => 0x4#4 ++ 0#8 ++ adc
  | .compp adc => 0x5#4 ++ 0#8 ++ adc
  | .comph adc => 0x6#4 ++ 0#12 ++ adc
  | .comptr msb lsb xlsb => 0x7#4 ++ 0#4 ++ msb ++ lsb ++ xlsb
  | .comppr msb lsb xlsb => 0x8#4 ++ 0#4 ++ msb ++ lsb ++ xlsb
  | .comphr msb lsb => 0x9#4 ++ 0#12 ++ msb ++ lsb
  | .tfwr imm => 0xA#4 ++ imm
  | .reset => 0xF#4 ++ 0#28

end Sys2Proof
end

