-- ==== Sys2Proof/Machine/Arith.lean ====
section
/-! DEFINITION. The arithmetic primitives of 00_scope.md R8 and R9. `wrapN` and `fitsN` are marked irreducible so that comparing
two results never evaluates a whole stage; `unfold` and the kernel see their bodies. -/

namespace Sys2Proof.Machine

/-- An intermediate result: the integer (R8: "Every value in a rule is a mathematical integer") and whether any primitive it was
computed from overflowed. R9 and R29 keep ONE command-local `ovf` that each primitive may set; here each value carries the part
of it that its own computation set, and a stage ORs the parts of everything it evaluated (log entry 11). -/
structure Checked where
  val : Int
  ovf : Bool
  deriving DecidableEq, Repr

/-- An operand or a constant: no primitive has run yet. -/
def exact (x : Int) : Checked := ⟨x, false⟩

/-- `wrap_N(x)`: the unique y in the sN range with y = x (mod 2^N) (R8). -/
@[irreducible] def wrapN (n : Nat) (x : Int) : Int := x.bmod (2 ^ n)

/-- `x` is in the sN range [-2^(N-1), 2^(N-1) - 1] (R8). -/
@[irreducible] def fitsN (n : Nat) (x : Int) : Bool := decide (-(2 ^ (n - 1)) ≤ x ∧ x ≤ 2 ^ (n - 1) - 1)

/-- `chk_N(x)` (R9), with the `ovf` its operands bring. -/
def chkN (n : Nat) (x : Int) (ovf : Bool) : Checked := ⟨wrapN n x, ovf || !fitsN n x⟩

/-- `add_N(a, b)` (R9). -/
def addN (n : Nat) (a b : Checked) : Checked := chkN n (a.val + b.val) (a.ovf || b.ovf)

/-- `sub_N(a, b)` (R9). -/
def subN (n : Nat) (a b : Checked) : Checked := chkN n (a.val - b.val) (a.ovf || b.ovf)

/-- `mul_N(a, b)` (R9). -/
def mulN (n : Nat) (a b : Checked) : Checked := chkN n (a.val * b.val) (a.ovf || b.ovf)

/-- `shl_N(a, k)` (R9): "a left shift is a multiply by 2^k". -/
def shlN (n : Nat) (a : Checked) (k : Nat) : Checked := chkN n (a.val * 2 ^ k) a.ovf

/-- `asr(a, k) = floor(a / 2^k)` (R9): Int division by a positive divisor rounds toward minus infinity; never overflows. -/
def asr (a : Checked) (k : Nat) : Checked := ⟨a.val / 2 ^ k, a.ovf⟩

/-- `tdiv_N(a, b)`, b not 0 (R9): truncating division; `none` where it raises DivOverflow (a = -2^(N-1), b = -1; R102). -/
def tdivN (n : Nat) (a b : Checked) : Option Checked :=
  if a.val = -(2 ^ (n - 1)) ∧ b.val = -1 then none else some ⟨a.val.tdiv b.val, a.ovf || b.ovf⟩

/-- The sN value of a container: `x` written into a register of `w` bits, sign-extended where `w` is wider (R8 `sext`). -/
def sext (w : Nat) (x : Int) : BitVec w := BitVec.ofInt w x

end Sys2Proof.Machine
end

