-- ==== Sys2Proof/Machine/State.lean ====
section
/-! DEFINITION. The state of SCP (10_state.md R20 to R31), the reasons a step could stop, and the state after reset. -/

namespace Sys2Proof.Machine

/-- Reasons the machine STOPS with a fault: there is none. Every fault of SCP is a state SCP goes on from (60_exceptions.md R131,
R136): it is recorded in STATUS.FAULT and the step answers a next state (log entry 8). Safe. -/
inductive Fault where
  deriving DecidableEq, Repr

/-- Reasons the model gives no meaning. -/
inductive Refusal where
  /-- Raised only by an arm of `exec` whose instruction has no meaning yet; no arm raises it now. Safe: the machine stops. -/
  | notModelled (mnemonic : String)
  deriving DecidableEq, Repr

/-- The fault causes SCP records in STATUS.FAULT (60_exceptions.md R130); codes 6..15 are never produced. -/
inductive FaultCode where
  | illegalCommand
  | noCalibration
  | noFineTemperature
  | stagingIncomplete
  | divOverflow
  deriving DecidableEq, Repr

/-- The names of the 18 coefficients (10_state.md R21), in the order of their indices. -/
inductive CoeffName where
  | t1 | t2 | t3 | p1 | p2 | p3 | p4 | p5 | p6 | p7 | p8 | p9 | h1 | h2 | h3 | h4 | h5 | h6
  deriving DecidableEq, Repr

/-- The coefficient file `CAL` (R21): bit patterns; whether one is read as signed is its type's (R21: T1, P1, H1, H3 unsigned,
the others signed). -/
structure Cal where
  t1 : BitVec 16
  t2 : BitVec 16
  t3 : BitVec 16
  p1 : BitVec 16
  p2 : BitVec 16
  p3 : BitVec 16
  p4 : BitVec 16
  p5 : BitVec 16
  p6 : BitVec 16
  p7 : BitVec 16
  p8 : BitVec 16
  p9 : BitVec 16
  h1 : BitVec 8
  h2 : BitVec 16
  h3 : BitVec 8
  h4 : BitVec 16
  h5 : BitVec 16
  h6 : BitVec 8
  deriving DecidableEq, Repr

/-- The stored fields of STATUS (10_state.md R26). STGF is "not separately stored" and the reserved bits are hardwired to 0, so
neither is a field here; the 32-bit word the host reads is `State.statusWord` (Flags.lean). -/
structure Status where
  calv : Bool
  tfv : Bool
  zden : Bool
  hclo : Bool
  hchi : Bool
  ovf : Bool
  /-- STATUS.FAULT; `none` is code 0. -/
  fault : Option FaultCode
  deriving DecidableEq, Repr

/-- The staging buffer as (index, byte) pairs in one canonical form (`Memory.wf`, Ops.lean). -/
abbrev Memory := List Host.Cell

/-- What the environment does next (60_exceptions.md R150, R153; 70_reset_and_hazards.md R160). -/
inductive HostEvent where
  /-- The host issues a command word. -/
  | command (w : Word)
  /-- Power-on reset (10_state.md R31). -/
  | powerOn
  deriving DecidableEq, Repr

/-- The state of SCP (R20), and two fields of the model's own. -/
structure State where
  /-- The coefficient file (R21, R22). -/
  cal : Cal
  /-- `T_FINE` (R23, R24). -/
  tFine : BitVec 64
  /-- `OUT0` (R25). -/
  out0 : BitVec 64
  /-- `OUT1` (R25). -/
  out1 : BitVec 64
  /-- `STATUS` (R26). -/
  status : Status
  /-- `STG[0..31]` (20_memory.md R40). -/
  stg : Memory
  /-- `WMASK` (R28). -/
  wmask : BitVec 32
  /-- The MODEL's own: what the host will do, the next event first. It is the environment's, not a queue of SCP's, which keeps
  none (R30). Log entry 1. -/
  host : List HostEvent
  /-- The MODEL's own: how many resets have drawn free values so far. Log entry 6. -/
  draws : Nat
  deriving DecidableEq, Repr

/-- Every STATUS field 0 (R31). -/
def Status.zero : Status := ⟨false, false, false, false, false, false, none⟩

/-- The value `CAL` is given at `State.reset`, where the spec leaves it unspecified (R31): DESIGN CHOICE, log entry 4. -/
def Cal.zero : Cal := ⟨0, 0, 0, 0, 0, 0, 0, 0, 0, 0, 0, 0, 0, 0, 0, 0, 0, 0⟩

/-- SCP right after power-on (10_state.md R31, 70_reset_and_hazards.md R160): STATUS, WMASK, OUT0 and OUT1 are 0. CAL, T_FINE and
STG are unspecified there; the model names 0 for them (DESIGN CHOICE, log entries 4 and 5). The host has issued nothing yet. -/
def State.reset : State where
  cal := Cal.zero
  tFine := 0
  out0 := 0
  out1 := 0
  status := Status.zero
  stg := []
  wmask := 0
  host := []
  draws := 0

end Sys2Proof.Machine
end

