-- ==== Sys2Proof/Machine/Operands.lean ====
section
/-! DEFINITION. Operand assembly (30_encoding.md R62, 20_memory.md R45) and the coefficients as operands (10_state.md R21). -/

namespace Sys2Proof.Machine

/-- `adc20(msb, lsb, xlsb)`: MSB first, the low nibble of XLSB discarded (R45, R63). -/
def adc20 (msb lsb xlsb : Byte) : BitVec 20 := msb ++ lsb ++ xlsb.extractLsb' 4 4

/-- `adc16(msb, lsb)`: MSB first (R45). -/
def adc16 (msb lsb : Byte) : BitVec 16 := msb ++ lsb

/-- `ADC = zext_32(...)`: an unsigned code "in an s32 container", as a stage operand (R62). -/
def code {w : Nat} (adc : BitVec w) : Checked := exact (adc.zeroExtend 32).toInt

/-- `IMM = sext_32(CW[27:0])` (R62), sign-extended again to the 64 bits of T_FINE (R121). -/
def fineImmediate (imm : BitVec 28) : BitVec 64 := (imm.signExtend 32).signExtend 64

/-- A u8 or u16 coefficient widened exactly to the stage width n (R90 step 5: `zext`). -/
def unsignedCoeff (n : Nat) {w : Nat} (v : BitVec w) : Checked := exact (v.zeroExtend n).toInt

/-- An s8 or s16 coefficient widened exactly to the stage width n (R90 step 5: `sext`). -/
def signedCoeff (n : Nat) {w : Nat} (v : BitVec w) : Checked := exact (v.signExtend n).toInt

/-- All 64 bits of T_FINE as the s64 that pressure reads (R23). -/
def fine64 (tFine : BitVec 64) : Checked := exact tFine.toInt

/-- T_FINE[31:0] as the s32 that humidity reads (R23). -/
def fine32 (tFine : BitVec 64) : Checked := exact (tFine.extractLsb' 0 32).toInt

/-- The coefficient an index names (R21); 18..31 name none. -/
def CoeffName.ofIndex : Nat → Option CoeffName
  | 0 => some .t1
  | 1 => some .t2
  | 2 => some .t3
  | 3 => some .p1
  | 4 => some .p2
  | 5 => some .p3
  | 6 => some .p4
  | 7 => some .p5
  | 8 => some .p6
  | 9 => some .p7
  | 10 => some .p8
  | 11 => some .p9
  | 12 => some .h1
  | 13 => some .h2
  | 14 => some .h3
  | 15 => some .h4
  | 16 => some .h5
  | 17 => some .h6
  | _ => none

/-- The index of a coefficient (R21). -/
def CoeffName.index : CoeffName → Nat
  | .t1 => 0
  | .t2 => 1
  | .t3 => 2
  | .p1 => 3
  | .p2 => 4
  | .p3 => 5
  | .p4 => 6
  | .p5 => 7
  | .p6 => 8
  | .p7 => 9
  | .p8 => 10
  | .p9 => 11
  | .h1 => 12
  | .h2 => 13
  | .h3 => 14
  | .h4 => 15
  | .h5 => 16
  | .h6 => 17

/-- A coefficient extended to 64 bits by its type (R21, R25, R86): zext for u8 and u16, sext for s8 and s16. -/
def Cal.extended (c : Cal) : CoeffName → BitVec 64
  | .t1 => c.t1.zeroExtend 64
  | .t2 => c.t2.signExtend 64
  | .t3 => c.t3.signExtend 64
  | .p1 => c.p1.zeroExtend 64
  | .p2 => c.p2.signExtend 64
  | .p3 => c.p3.signExtend 64
  | .p4 => c.p4.signExtend 64
  | .p5 => c.p5.signExtend 64
  | .p6 => c.p6.signExtend 64
  | .p7 => c.p7.signExtend 64
  | .p8 => c.p8.signExtend 64
  | .p9 => c.p9.signExtend 64
  | .h1 => c.h1.zeroExtend 64
  | .h2 => c.h2.signExtend 64
  | .h3 => c.h3.zeroExtend 64
  | .h4 => c.h4.signExtend 64
  | .h5 => c.h5.signExtend 64
  | .h6 => c.h6.signExtend 64

end Sys2Proof.Machine
end

