-- ==== Sys2Proof/Config.lean ====
section
/-! DEFINITION. What an implementation of SCP fixes and the spec leaves open, and the free values a reset leaves behind.
Every constant here is opaque: nothing can be proved about its value, so a statement holds for every value of it. -/

namespace Sys2Proof

/-- `H45_SIGN_EXTEND`, the one open parameter of the spec (00_scope.md R6, 40_calibration.md R84, D9): whether the high byte of
H4 and H5 is sign-extended before the shift. Log entry 3; safe. -/
opaque Config.h45SignExtend : Bool

/-- What coefficient `k` of `CAL` holds after the reset numbered `draw`, where it held `old` before: unspecified
(10_state.md R31, 42_control.md R122). A FREE VALUE; an 8-bit coefficient takes the low byte. Log entry 6; safe. -/
opaque Config.freeCoefficient : (draw : Nat) → (k : Nat) → (old : BitVec 16) → BitVec 16

/-- The s32 value `T_FINE` holds after the reset numbered `draw`, where it held `old` before: unspecified (R31, R122).
A FREE VALUE. Log entries 6 and 7. -/
opaque Config.freeFineTemperature : (draw : Nat) → (old : BitVec 64) → BitVec 32

/-- What `STG[i]` holds after the reset numbered `draw`, where it held `old` before: unspecified (R31, R122).
A FREE VALUE. Log entry 6; safe. -/
opaque Config.freeStagingByte : (draw : Nat) → (i : Nat) → (old : Byte) → Byte

end Sys2Proof
end

