-- ==== Sys2Proof/Machine/Flags.lean ====
section
/-! DEFINITION. The STATUS word the host reads (10_state.md R26) and the fault codes in it (60_exceptions.md R130). -/

namespace Sys2Proof.Machine

/-- The code of a fault cause (R130). -/
def FaultCode.code : FaultCode → BitVec 4
  | .illegalCommand => 1
  | .noCalibration => 2
  | .noFineTemperature => 3
  | .stagingIncomplete => 4
  | .divOverflow => 5

/-- STATUS.FAULT, bits 11:8: 0 = no fault (R26, R130). -/
def Status.faultBits (st : Status) : BitVec 4 :=
  match st.fault with
  | none => 0
  | some f => f.code

/-- SCP is faulted when STATUS.FAULT != 0 (R30). -/
def State.faulted (s : State) : Bool := s.status.fault.isSome

/-- STATUS.STGF: reads as WMASK = 0xFFFFFFFF (R26). -/
def State.stgf (s : State) : Bool := decide (s.wmask = 0xFFFFFFFF)

/-- STATUS as the host reads it (R26), bit 31 first: 31:12 reserved, 11:8 FAULT, 7 reserved, STGF, OVF, HCHI, HCLO, ZDEN, TFV,
CALV. -/
def State.statusWord (s : State) : Word :=
  0#20 ++ s.status.faultBits ++ 0#1 ++ BitVec.ofBool s.stgf ++ BitVec.ofBool s.status.ovf ++ BitVec.ofBool s.status.hchi ++
    BitVec.ofBool s.status.hclo ++ BitVec.ofBool s.status.zden ++ BitVec.ofBool s.status.tfv ++ BitVec.ofBool s.status.calv

end Sys2Proof.Machine
end

