-- ==== Sys2Proof/Machine/Ops.lean ====
section
/-! DEFINITION. The named operations over the staging memory and the registers, raising a fault (60_exceptions.md R131), the
faulted condition (R136), the guards of the compute commands (41_compensation.md R90) and reset (42_control.md R122). -/

namespace Sys2Proof.Machine

/-- What an exec answers. -/
abbrev Result := Host.Outcome State Fault Refusal

/-! ### The staging memory -/

/-- What a staging byte that nothing has written reads as: the spec leaves it unspecified (10_state.md R31).
DESIGN CHOICE, unsafe, log entry 5; no command can use it (R28). -/
def Memory.unlisted : Byte := 0

/-- `STG[i]`: one byte (20_memory.md R40); every 5-bit index is valid (R46). -/
def Memory.lookup : Memory → Nat → Byte
  | [], _ => Memory.unlisted
  | c :: m, i => if c.1 = i then c.2 else Memory.lookup m i

/-- `STG[i]`. -/
def Memory.read (m : Memory) (i : BitVec 5) : Byte := m.lookup i.toNat

/-- Put a cell in its place in the rising order of indices. -/
def Memory.insertCell (c : Host.Cell) : Memory → Memory
  | [] => [c]
  | d :: m => if c.1 < d.1 then c :: d :: m else d :: Memory.insertCell c m

/-- `STG[i] <- b` (R40), keeping the canonical form: the old entry goes, and a byte equal to what an unlisted index reads as is
not listed. -/
def Memory.write (m : Memory) (i : BitVec 5) (b : Byte) : Memory :=
  let rest := m.filter (fun c => c.1 != i.toNat)
  if b = Memory.unlisted then rest else Memory.insertCell (i.toNat, b) rest

/-- The canonical memory whose byte at index i, for i < 32, is `image i`. -/
def Memory.ofImage (image : Nat → Byte) : Memory :=
  (List.range 32).filterMap fun i => if image i = Memory.unlisted then none else some (i, image i)

/-- The canonical form: indices strictly rising and below 32, no entry equal to what an unlisted index reads as. -/
def Memory.wf (m : Memory) : Bool :=
  decide (m.Pairwise fun c d => c.1 < d.1) && m.all fun c => decide (c.1 < 32) && c.2 != Memory.unlisted

/-! ### The registers: one named update for each effect the commands have -/

/-- CALWR's effect (40_calibration.md R80): STG[idx] <- byte; WMASK[idx] <- 1. -/
def State.stageByte (s : State) (idx : BitVec 5) (byte : Byte) : State :=
  { s with stg := s.stg.write idx byte, wmask := s.wmask ||| (1#32 <<< idx.toNat) }

/-- CALCOMMIT's effect (R82, 20_memory.md R47): all 18 entries in one step; CALV <- 1; TFV <- 0; WMASK <- 0. -/
def State.commit (s : State) (c : Cal) : State :=
  { s with cal := c, wmask := 0, status := { s.status with calv := true, tfv := false } }

/-- CALRD's effect (R86). -/
def State.writeOut0 (s : State) (v : BitVec 64) : State := { s with out0 := v }

/-- TFWR's effect (42_control.md R121). -/
def State.writeFine (s : State) (v : BitVec 64) : State :=
  { s with tFine := v, status := { s.status with tfv := true } }

/-- The results of a temperature command (41_compensation.md R91): T_FINE, TFV, OUT0 = t, OUT1 = T_FINE, OVF. -/
def State.writeTemperature (s : State) (t tf : BitVec 64) (ovf : Bool) : State :=
  { s with tFine := tf, out0 := t, out1 := tf, status := { s.status with tfv := true, ovf := ovf } }

/-- The results of a pressure command (R100): OUT0 = p, OUT1 = 0, ZDEN, OVF. -/
def State.writePressure (s : State) (p : BitVec 64) (zden ovf : Bool) : State :=
  { s with out0 := p, out1 := 0, status := { s.status with zden := zden, ovf := ovf } }

/-- The results of a humidity command (R106): OUT0 = H, OUT1 = 0, HCLO, HCHI, OVF. -/
def State.writeHumidity (s : State) (h : BitVec 64) (hclo hchi ovf : Bool) : State :=
  { s with out0 := h, out1 := 0, status := { s.status with hclo := hclo, hchi := hchi, ovf := ovf } }

/-! ### Faults -/

/-- `raise F` (60_exceptions.md R131): STATUS.FAULT <- code(F) and nothing else. -/
def State.raise (f : FaultCode) (s : State) : State := { s with status := { s.status with fault := some f } }

/-- Run a command other than RESET: while SCP is faulted it is ignored (R136). -/
def accept (s : State) (body : State → State) : Result := .next (if s.faulted then s else body s)

/-- The CALV guard (R133, 10_state.md R22). -/
def withCalibration (s : State) (body : State → State) : State :=
  if s.status.calv then body s else s.raise .noCalibration

/-- The TFV guard (R134, 10_state.md R24). -/
def withFineTemperature (s : State) (body : State → State) : State :=
  if s.status.tfv then body s else s.raise .noFineTemperature

/-! ### Reset -/

/-- `CAL` after a reset: unspecified, it may keep its old values (R31, R122); free values (log entry 6). -/
def Cal.unspecified (draw : Nat) (c : Cal) : Cal where
  t1 := Config.freeCoefficient draw 0 c.t1
  t2 := Config.freeCoefficient draw 1 c.t2
  t3 := Config.freeCoefficient draw 2 c.t3
  p1 := Config.freeCoefficient draw 3 c.p1
  p2 := Config.freeCoefficient draw 4 c.p2
  p3 := Config.freeCoefficient draw 5 c.p3
  p4 := Config.freeCoefficient draw 6 c.p4
  p5 := Config.freeCoefficient draw 7 c.p5
  p6 := Config.freeCoefficient draw 8 c.p6
  p7 := Config.freeCoefficient draw 9 c.p7
  p8 := Config.freeCoefficient draw 10 c.p8
  p9 := Config.freeCoefficient draw 11 c.p9
  h1 := (Config.freeCoefficient draw 12 (c.h1.zeroExtend 16)).setWidth 8
  h2 := Config.freeCoefficient draw 13 c.h2
  h3 := (Config.freeCoefficient draw 14 (c.h3.zeroExtend 16)).setWidth 8
  h4 := Config.freeCoefficient draw 15 c.h4
  h5 := Config.freeCoefficient draw 16 c.h5
  h6 := (Config.freeCoefficient draw 17 (c.h6.zeroExtend 16)).setWidth 8

/-- `T_FINE` after a reset: unspecified (R31, R122), but in the s32 range as always (00_scope.md R6, 10_state.md R23; log entry 7). -/
def unspecifiedFine (draw : Nat) (old : BitVec 64) : BitVec 64 := (Config.freeFineTemperature draw old).signExtend 64

/-- `STG` after a reset: unspecified (R31, R122); free bytes (log entry 6). -/
def Memory.unspecified (draw : Nat) (m : Memory) : Memory :=
  Memory.ofImage fun i => Config.freeStagingByte draw i (m.lookup i)

/-- Reset, power-on or by command, "both give the same state" (R31, R122): STATUS, WMASK, OUT0, OUT1 <- 0; CAL, T_FINE and STG
unspecified. -/
def State.clear (s : State) : State :=
  { s with
    cal := s.cal.unspecified s.draws, tFine := unspecifiedFine s.draws s.tFine, out0 := 0, out1 := 0, status := Status.zero,
    stg := s.stg.unspecified s.draws, wmask := 0, draws := s.draws + 1 }

end Sys2Proof.Machine
end

