-- ==== Sys2Proof/Machine/Calibration.lean ====
section
/-! DEFINITION. The calibration unpacker commands (40_calibration.md R80 to R86). -/

namespace Sys2Proof.Machine

/-- A little-endian 16-bit field with its low byte at staging index `i` (20_memory.md R42):
`zext_16(img[i]) + 256 * zext_16(img[i+1])`. -/
def littleEndian (img : BitVec 5 → Byte) (i : BitVec 5) : BitVec 16 :=
  (img i).zeroExtend 16 + 256 * (img (i + 1)).zeroExtend 16

/-- H4 and H5: `m * 16 + nibble`, where the high byte is read as s8 or as u8 by `H45_SIGN_EXTEND` (R84). -/
def packed12 (sx : Bool) (high : Byte) (nibble : BitVec 4) : BitVec 16 :=
  (if sx then high.signExtend 16 else high.zeroExtend 16) * 16 + nibble.zeroExtend 16

/-- `Unpack(img, H45_SIGN_EXTEND)` (R83, R84, R85) over the index map of 20_memory.md R41; `h[j] = img[24 + j]`. -/
def unpack (sx : Bool) (img : BitVec 5 → Byte) : Cal where
  t1 := littleEndian img 0
  t2 := littleEndian img 2
  t3 := littleEndian img 4
  p1 := littleEndian img 6
  p2 := littleEndian img 8
  p3 := littleEndian img 10
  p4 := littleEndian img 12
  p5 := littleEndian img 14
  p6 := littleEndian img 16
  p7 := littleEndian img 18
  p8 := littleEndian img 20
  p9 := littleEndian img 22
  h1 := img 24
  h2 := littleEndian img 25
  h3 := img 27
  h4 := packed12 sx (img 28) ((img 29).extractLsb' 0 4)
  h5 := packed12 sx (img 30) ((img 29).extractLsb' 4 4)
  h6 := img 31

/-- CALWR (R80). -/
def execCalwr (idx : BitVec 5) (byte : Byte) (s : State) : Result :=
  accept s fun s => s.stageByte idx byte

/-- CALCOMMIT (R82): StagingIncomplete unless all 32 bytes have been written since the last CALCOMMIT or RESET (R135). -/
def execCalcommit (s : State) : Result :=
  accept s fun s =>
    if s.stgf then s.commit (unpack Config.h45SignExtend s.stg.read) else s.raise .stagingIncomplete

/-- CALRD (R86). A `k` that names no coefficient is IllegalCommand (R66 ground 3), checked first (R138); the decoder already
refuses such a word (log entry 15). -/
def execCalrd (k : BitVec 5) (s : State) : Result :=
  accept s fun s =>
    match CoeffName.ofIndex k.toNat with
    | none => s.raise .illegalCommand
    | some name => withCalibration s fun s => s.writeOut0 (s.cal.extended name)

end Sys2Proof.Machine
end

