-- ==== Sys2Proof/Machine/Compensation.lean ====
section
/-! DEFINITION. The compensation pipeline (41_compensation.md R90 to R110). The constants are those the rules state; all but
3125, the clamp bounds and the final scales are the spec's [GK] constants (log entry 12). -/

namespace Sys2Proof.Machine

/-! ### Temperature (R92): all values s32 -/

/-- What `CompT` returns, with the stage's `ovf`. -/
structure TemperatureResult where
  t : Int
  tf : Int
  ovf : Bool
  deriving DecidableEq, Repr

/-- Step T-1. -/
def tempVar1 (c : Cal) (adc : Checked) : Checked :=
  asr (mulN 32 (subN 32 (asr adc 3) (shlN 32 (unsignedCoeff 32 c.t1) 1)) (signedCoeff 32 c.t2)) 11

/-- Step T-2, the second term. -/
def tempVar2 (c : Cal) (adc : Checked) : Checked :=
  let d := subN 32 (asr adc 4) (unsignedCoeff 32 c.t1)
  asr (mulN 32 (asr (mulN 32 d d) 12) (signedCoeff 32 c.t3)) 14

/-- Step T-2, the fine temperature. -/
def tempFine (c : Cal) (adc : Checked) : Checked := addN 32 (tempVar1 c adc) (tempVar2 c adc)

/-- Step T-2, the temperature in 0.01 degC. -/
def tempCentidegrees (tf : Checked) : Checked := asr (addN 32 (mulN 32 tf (exact 5)) (exact 128)) 8

/-- `CompT(adc)` (R92). Every primitive feeds `t`, so `ovf` of `t` is the stage's. -/
def compT (c : Cal) (adc : Checked) : TemperatureResult :=
  let tf := tempFine c adc
  let t := tempCentidegrees tf
  ⟨t.val, tf.val, t.ovf⟩

/-! ### Pressure (R98): all values s64 -/

/-- How `CompP` ends. -/
inductive PressureResult where
  /-- The denominator is 0: p = 0, zden = 1 (R99). -/
  | zeroDenominator (ovf : Bool)
  /-- Step P-8 raises DivOverflow (R102). -/
  | divOverflow
  /-- p, zden = 0. -/
  | value (p : Int) (ovf : Bool)
  deriving DecidableEq, Repr

/-- Step P-1. -/
def pressVar (tf : Checked) : Checked := subN 64 tf (exact 128000)

/-- Steps P-2 to P-4, the correction term var2. -/
def pressVar2 (c : Cal) (tf : Checked) : Checked :=
  let var1 := pressVar tf
  let p2 := mulN 64 (mulN 64 var1 var1) (signedCoeff 64 c.p6)
  let p3 := addN 64 p2 (shlN 64 (mulN 64 var1 (signedCoeff 64 c.p5)) 17)
  addN 64 p3 (shlN 64 (signedCoeff 64 c.p4) 35)

/-- Step P-5. -/
def pressVar1 (c : Cal) (tf : Checked) : Checked :=
  let var1 := pressVar tf
  addN 64 (asr (mulN 64 (mulN 64 var1 var1) (signedCoeff 64 c.p3)) 8) (shlN 64 (mulN 64 var1 (signedCoeff 64 c.p2)) 12)

/-- Step P-6, the denominator. -/
def pressDenominator (c : Cal) (tf : Checked) : Checked :=
  asr (mulN 64 (addN 64 (exact (2 ^ 47)) (pressVar1 c tf)) (unsignedCoeff 64 c.p1)) 33

/-- Steps P-7 and P-8, the dividend. -/
def pressDividend (c : Cal) (adc tf : Checked) : Checked :=
  let p := subN 64 (exact 1048576) adc
  mulN 64 (subN 64 (shlN 64 p 31) (pressVar2 c tf)) (exact 3125)

/-- Step P-9: the two further correction terms, the scale by 256, and P7. -/
def pressFinish (c : Cal) (p : Checked) : Checked :=
  let var1 := asr (mulN 64 (mulN 64 (signedCoeff 64 c.p9) (asr p 13)) (asr p 13)) 25
  let var2 := asr (mulN 64 (signedCoeff 64 c.p8) p) 19
  addN 64 (asr (addN 64 (addN 64 p var1) var2) 8) (shlN 64 (signedCoeff 64 c.p7) 4)

/-- `CompP(adc, tf)` (R98). On the sentinel path P-1 to P-6 have run, so `ovf` is theirs (R99: "`STATUS.OVF` still reflects
steps P-1 to P-6"). -/
def compP (c : Cal) (adc tf : Checked) : PressureResult :=
  let den := pressDenominator c tf
  if den.val = 0 then .zeroDenominator ((pressVar2 c tf).ovf || den.ovf)
  else
    match tdivN 64 (pressDividend c adc tf) den with
    | none => .divOverflow
    | some p => let r := pressFinish c p; .value r.val r.ovf

/-! ### Humidity (R104): all values s32 -/

/-- What `CompH` returns, with the stage's `ovf`. -/
structure HumidityResult where
  h : Int
  hclo : Bool
  hchi : Bool
  ovf : Bool
  deriving DecidableEq, Repr

/-- Step H-1. -/
def humVar (tf : Checked) : Checked := subN 32 tf (exact 76800)

/-- Step H-2, `a`. -/
def humA (c : Cal) (adc tf : Checked) : Checked :=
  asr (addN 32
    (subN 32 (subN 32 (shlN 32 adc 14) (shlN 32 (signedCoeff 32 c.h4) 20)) (mulN 32 (signedCoeff 32 c.h5) (humVar tf)))
    (exact 16384)) 15

/-- Step H-2, `f` (from `b`, `c` and `e`). -/
def humF (c : Cal) (tf : Checked) : Checked :=
  let b := asr (mulN 32 (humVar tf) (signedCoeff 32 c.h6)) 10
  let cc := addN 32 (asr (mulN 32 (humVar tf) (unsignedCoeff 32 c.h3)) 11) (exact 32768)
  let e := addN 32 (asr (mulN 32 b cc) 10) (exact 2097152)
  asr (addN 32 (mulN 32 e (signedCoeff 32 c.h2)) (exact 8192)) 14

/-- Steps H-2 (the product) and H-3, the accumulator before the clamp. -/
def humAccumulator (c : Cal) (adc tf : Checked) : Checked :=
  let v := mulN 32 (humA c adc tf) (humF c tf)
  let s := asr v 15
  subN 32 v (asr (mulN 32 (asr (mulN 32 s s) 7) (unsignedCoeff 32 c.h1)) 4)

/-- `CompH(adc, tf)` (R104): step H-4 clamps to [0, 419430400] (R105), step H-5 shifts by 12 (90_conflicts.md C2). Every
primitive feeds the accumulator, so its `ovf` is the stage's. -/
def compH (c : Cal) (adc tf : Checked) : HumidityResult :=
  let v := humAccumulator c adc tf
  let clamped : Checked := ⟨min (max v.val 0) 419430400, v.ovf⟩
  ⟨(asr clamped 12).val, decide (v.val < 0), decide (419430400 < v.val), v.ovf⟩

/-! ### The commands -/

/-- A temperature command on an assembled code (R90, R91). -/
def temperature (adc : BitVec 20) (s : State) : State :=
  withCalibration s fun s =>
    let r := compT s.cal (code adc)
    s.writeTemperature (sext 64 r.t) (sext 64 r.tf) r.ovf

/-- A pressure command on an assembled code (R90, R100). -/
def pressure (adc : BitVec 20) (s : State) : State :=
  withCalibration s fun s => withFineTemperature s fun s =>
    match compP s.cal (code adc) (fine64 s.tFine) with
    | .zeroDenominator ovf => s.writePressure 0 true ovf
    | .divOverflow => s.raise .divOverflow
    | .value p ovf => s.writePressure (sext 64 p) false ovf

/-- A humidity command on an assembled code (R90, R106). -/
def humidity (adc : BitVec 16) (s : State) : State :=
  withCalibration s fun s => withFineTemperature s fun s =>
    let r := compH s.cal (code adc) (fine32 s.tFine)
    s.writeHumidity (sext 64 r.h) r.hclo r.hchi r.ovf

/-- COMPT (R91). -/
def execCompt (adc : BitVec 20) (s : State) : Result := accept s (temperature adc)

/-- COMPP (R100). -/
def execCompp (adc : BitVec 20) (s : State) : Result := accept s (pressure adc)

/-- COMPH (R106). -/
def execComph (adc : BitVec 16) (s : State) : Result := accept s (humidity adc)

/-- COMPTR (R97). -/
def execComptr (msb lsb xlsb : Byte) (s : State) : Result := accept s (temperature (adc20 msb lsb xlsb))

/-- COMPPR (R103). -/
def execComppr (msb lsb xlsb : Byte) (s : State) : Result := accept s (pressure (adc20 msb lsb xlsb))

/-- COMPHR (R110). -/
def execComphr (msb lsb : Byte) (s : State) : Result := accept s (humidity (adc16 msb lsb))

end Sys2Proof.Machine
end

