-- ==== Sys2Proof/Machine/Control.lean ====
section
/-! DEFINITION. The control commands (42_control.md R120 to R122). -/

namespace Sys2Proof.Machine

/-- NOP (R120): no effect, whatever its operand bits. -/
def execNop (_operand : BitVec 28) (s : State) : Result := accept s fun s => s

/-- TFWR (R121): needs no calibration. -/
def execTfwr (imm : BitVec 28) (s : State) : Result := accept s fun s => s.writeFine (fineImmediate imm)

/-- RESET (R122): accepted in the faulted condition too (60_exceptions.md R136). -/
def execReset (s : State) : Result := .next s.clear

end Sys2Proof.Machine
end

