-- ==== Sys2Proof/Machine/Dispatch.lean ====
section
/-! DEFINITION. One arm per command, each one call of its meaning. -/

namespace Sys2Proof.Machine

open Sys2Proof

def exec (i : Instr) (s : State) : Host.Outcome State Fault Refusal :=
  match i with
  | .nop operand => Sys2Proof.Machine.execNop operand s
  | .calwr idx byte => Sys2Proof.Machine.execCalwr idx byte s
  | .calcommit => Sys2Proof.Machine.execCalcommit s
  | .calrd k => Sys2Proof.Machine.execCalrd k s
  | .compt adc => Sys2Proof.Machine.execCompt adc s
  | .compp adc => Sys2Proof.Machine.execCompp adc s
  | .comph adc => Sys2Proof.Machine.execComph adc s
  | .comptr msb lsb xlsb => Sys2Proof.Machine.execComptr msb lsb xlsb s
  | .comppr msb lsb xlsb => Sys2Proof.Machine.execComppr msb lsb xlsb s
  | .comphr msb lsb => Sys2Proof.Machine.execComphr msb lsb s
  | .tfwr imm => Sys2Proof.Machine.execTfwr imm s
  | .reset => Sys2Proof.Machine.execReset s

end Sys2Proof.Machine
end

