-- ==== Sys2Proof/Machine/Issue.lean ====
section
/-! DEFINITION. How SCP takes what the host does next: a command word (30_encoding.md R65, R66) or a power-on reset. -/

namespace Sys2Proof.Machine

/-- The host has taken its next step; `rest` is what is still to come (log entry 1). -/
def State.withHost (s : State) (rest : List HostEvent) : State := { s with host := rest }

/-- SCP receives the command word `w`: the command it decodes to, or IllegalCommand (60_exceptions.md R132), ignored while
faulted (R136). -/
def issueWord (w : Word) (s : State) : Result :=
  match decode w with
  | .ok i => exec i s
  | .error _ => accept s (State.raise .illegalCommand)

/-- The next thing the host does. With nothing issued SCP waits (70_reset_and_hazards.md R160; log entry 2). -/
def nextEvent (s : State) : Result :=
  match s.host with
  | [] => .next s
  | .command w :: rest => issueWord w (s.withHost rest)
  | .powerOn :: rest => .next (s.withHost rest).clear

/-- The host issues `w` before anything else it was going to do. -/
def State.issueFirst (s : State) (w : Word) : State := s.withHost (.command w :: s.host)

end Sys2Proof.Machine
end

