-- ==== Sys2Proof/Machine/Step.lean ====
section
/-! DEFINITION. One step of SCP: the next thing the host does, completely (20_memory.md R50). SCP fetches nothing (10_state.md R27). -/

namespace Sys2Proof.Machine

/-- One step: one command word, or one power-on reset, or waiting (20_memory.md R50, 70_reset_and_hazards.md R160). -/
def step (s : State) : Host.Outcome State Fault Refusal := nextEvent s

/-- `s` with the command word `w` (`nbits` bits, the rest zero) as the next thing the host issues (log entry 1). -/
def State.withFetchWord (s : State) (nbits w : Nat) : State := s.issueFirst (BitVec.ofNat 32 (w % 2 ^ nbits))

end Sys2Proof.Machine
end

