-- ==== Sys2Proof/Machine/Assembler.lean ====
section
/-! DEFINITION. The assembler: syntax and words of 30_encoding.md R68, pseudo-instructions of R69. Text details the spec does
not give are in log entry 16. -/

namespace Sys2Proof.Machine

/-- A line of assembly with its operands as numbers (R68), or a pseudo-instruction (R69). -/
inductive AsmLine where
  | nop
  | calwr (idx byte : Int)
  | calcommit
  | calrd (k : Int)
  | calrdName (name : CoeffName)
  | compt (adc : Int)
  | compp (adc : Int)
  | comph (adc : Int)
  | comptr (msb lsb xlsb : Int)
  | comppr (msb lsb xlsb : Int)
  | comphr (msb lsb : Int)
  | tfwr (imm : Int)
  | reset
  /-- CALLOAD b0, ..., b31. -/
  | calload (bytes : List Int)
  /-- MEASURE pm, pl, px, tm, tl, tx, hm, hl. -/
  | measure (pm pl px tm tl tx hm hl : Int)
  /-- CLRSTAT. -/
  | clrstat
  deriving DecidableEq, Repr

/-- `lo <= x <= hi`. -/
def within (lo hi x : Int) : Bool := decide (lo ≤ x ∧ x ≤ hi)

/-- A raw byte operand (R68). -/
def isByte (x : Int) : Bool := within 0 255 x

/-- The words of one line, by the arithmetic of R68's table; `none` where "an assembler refuses these operands". A
pseudo-instruction has no word of its own: `expandLine` comes first. -/
def assembleOne : AsmLine → Option Word
  | .nop => some 0x00000000
  | .calwr idx byte =>
    if within 0 31 idx && isByte byte then some (BitVec.ofInt 32 (0x10000000 + idx * 0x100 + byte)) else none
  | .calcommit => some 0x20000000
  | .calrd k => if within 0 17 k then some (BitVec.ofInt 32 (0x30000000 + k)) else none
  | .calrdName name => some (BitVec.ofInt 32 (0x30000000 + name.index))
  | .compt adc => if within 0 1048575 adc then some (BitVec.ofInt 32 (0x40000000 + adc)) else none
  | .compp adc => if within 0 1048575 adc then some (BitVec.ofInt 32 (0x50000000 + adc)) else none
  | .comph adc => if within 0 65535 adc then some (BitVec.ofInt 32 (0x60000000 + adc)) else none
  | .comptr msb lsb xlsb =>
    if isByte msb && isByte lsb && isByte xlsb then
      some (BitVec.ofInt 32 (0x70000000 + msb * 0x10000 + lsb * 0x100 + xlsb)) else none
  | .comppr msb lsb xlsb =>
    if isByte msb && isByte lsb && isByte xlsb then
      some (BitVec.ofInt 32 (0x80000000 + msb * 0x10000 + lsb * 0x100 + xlsb)) else none
  | .comphr msb lsb =>
    if isByte msb && isByte lsb then some (BitVec.ofInt 32 (0x90000000 + msb * 0x100 + lsb)) else none
  | .tfwr imm =>
    if within (-134217728) 134217727 imm then some (BitVec.ofInt 32 (0xA0000000 + imm % 2 ^ 28)) else none
  | .reset => some 0xF0000000
  | .calload _ => none
  | .measure _ _ _ _ _ _ _ _ => none
  | .clrstat => none

/-- `CALWR i, b` for the bytes in index order (R69). -/
def calwrsFrom : Nat → List Int → List AsmLine
  | _, [] => []
  | i, b :: bs => .calwr i b :: calwrsFrom (i + 1) bs

/-- The expansion of a line (R69); a line that is no pseudo-instruction stands for itself. CALLOAD has exactly 32 bytes. -/
def expandLine : AsmLine → Option (List AsmLine)
  | .calload bytes => if bytes.length = 32 then some (calwrsFrom 0 bytes ++ [.calcommit]) else none
  | .measure pm pl px tm tl tx hm hl => some [.comptr tm tl tx, .comppr pm pl px, .comphr hm hl]
  | .clrstat => some [.reset]
  | .nop => some [.nop]
  | .calwr idx byte => some [.calwr idx byte]
  | .calcommit => some [.calcommit]
  | .calrd k => some [.calrd k]
  | .calrdName name => some [.calrdName name]
  | .compt adc => some [.compt adc]
  | .compp adc => some [.compp adc]
  | .comph adc => some [.comph adc]
  | .comptr msb lsb xlsb => some [.comptr msb lsb xlsb]
  | .comppr msb lsb xlsb => some [.comppr msb lsb xlsb]
  | .comphr msb lsb => some [.comphr msb lsb]
  | .tfwr imm => some [.tfwr imm]
  | .reset => some [.reset]

/-- The words of lines in order; refused if any line is. -/
def assembleAll : List AsmLine → Option (List Word)
  | [] => some []
  | l :: ls =>
    match assembleOne l, assembleAll ls with
    | some w, some ws => some (w :: ws)
    | _, _ => none

/-- The words a line assembles to (R68, R69); `none` where the assembler refuses it. -/
def assemble (l : AsmLine) : Option (List Word) :=
  match expandLine l with
  | some ls => assembleAll ls
  | none => none

/-! ### The text of a line -/

/-- A blank between tokens (log entry 16). -/
def isBlank (c : Char) : Bool := c == ' ' || c == '\t' || c == '\r' || c == '\n'

/-- `;` starts a comment (R68). -/
def dropComment (cs : List Char) : List Char := cs.takeWhile fun c => c != ';'

/-- Text without blanks before and after it. -/
def trimBlanks (cs : List Char) : List Char := ((cs.dropWhile isBlank).reverse.dropWhile isBlank).reverse

/-- The parts between commas. -/
def splitCommas : List Char → List (List Char)
  | [] => [[]]
  | c :: cs =>
    if c = ',' then [] :: splitCommas cs
    else
      match splitCommas cs with
      | [] => [[c]]
      | p :: ps => (c :: p) :: ps

/-- The value of a digit, decimal or hexadecimal. -/
def digitValue (c : Char) : Option Nat :=
  if '0' ≤ c ∧ c ≤ '9' then some (c.toNat - '0'.toNat)
  else if 'a' ≤ c ∧ c ≤ 'f' then some (c.toNat - 'a'.toNat + 10)
  else if 'A' ≤ c ∧ c ≤ 'F' then some (c.toNat - 'A'.toNat + 10)
  else none

/-- Digits of a base, most significant first, after the value `acc` read so far. -/
def digitsFrom (base acc : Nat) : List Char → Option Nat
  | [] => some acc
  | c :: cs =>
    match digitValue c with
    | some d => if d < base then digitsFrom base (acc * base + d) cs else none
    | none => none

/-- A number: "decimal, or hexadecimal with `0x`" (R68), with a minus sign before it where it is negative (log entry 16). -/
def parseNumber : List Char → Option Int
  | [] => none
  | ['-'] => none
  | '0' :: 'x' :: c :: cs => (digitsFrom 16 0 (c :: cs)).map Int.ofNat
  | '-' :: cs => (digitsFrom 10 0 cs).map fun n => -(n : Int)
  | cs => (digitsFrom 10 0 cs).map Int.ofNat

/-- The numbers of an operand list. -/
def parseNumbers : List (List Char) → Option (List Int)
  | [] => some []
  | p :: ps =>
    match parseNumber (trimBlanks p), parseNumbers ps with
    | some x, some xs => some (x :: xs)
    | _, _ => none

/-- `<name>` of `CALRD <name>`: T1..T3, P1..P9, H1..H6 (R68). -/
def parseCoeffName : List Char → Option CoeffName
  | ['T', '1'] => some .t1
  | ['T', '2'] => some .t2
  | ['T', '3'] => some .t3
  | ['P', '1'] => some .p1
  | ['P', '2'] => some .p2
  | ['P', '3'] => some .p3
  | ['P', '4'] => some .p4
  | ['P', '5'] => some .p5
  | ['P', '6'] => some .p6
  | ['P', '7'] => some .p7
  | ['P', '8'] => some .p8
  | ['P', '9'] => some .p9
  | ['H', '1'] => some .h1
  | ['H', '2'] => some .h2
  | ['H', '3'] => some .h3
  | ['H', '4'] => some .h4
  | ['H', '5'] => some .h5
  | ['H', '6'] => some .h6
  | _ => none

/-- A mnemonic with its operands as numbers (R68, R69). -/
def lineOf (mnemonic : List Char) (ops : List Int) : Option AsmLine :=
  match mnemonic, ops with
  | ['N', 'O', 'P'], [] => some .nop
  | ['C', 'A', 'L', 'W', 'R'], [idx, byte] => some (.calwr idx byte)
  | ['C', 'A', 'L', 'C', 'O', 'M', 'M', 'I', 'T'], [] => some .calcommit
  | ['C', 'A', 'L', 'R', 'D'], [k] => some (.calrd k)
  | ['C', 'O', 'M', 'P', 'T'], [adc] => some (.compt adc)
  | ['C', 'O', 'M', 'P', 'P'], [adc] => some (.compp adc)
  | ['C', 'O', 'M', 'P', 'H'], [adc] => some (.comph adc)
  | ['C', 'O', 'M', 'P', 'T', 'R'], [msb, lsb, xlsb] => some (.comptr msb lsb xlsb)
  | ['C', 'O', 'M', 'P', 'P', 'R'], [msb, lsb, xlsb] => some (.comppr msb lsb xlsb)
  | ['C', 'O', 'M', 'P', 'H', 'R'], [msb, lsb] => some (.comphr msb lsb)
  | ['T', 'F', 'W', 'R'], [imm] => some (.tfwr imm)
  | ['R', 'E', 'S', 'E', 'T'], [] => some .reset
  | ['C', 'A', 'L', 'L', 'O', 'A', 'D'], bytes => some (.calload bytes)
  | ['M', 'E', 'A', 'S', 'U', 'R', 'E'], [pm, pl, px, tm, tl, tx, hm, hl] => some (.measure pm pl px tm tl tx hm hl)
  | ['C', 'L', 'R', 'S', 'T', 'A', 'T'], [] => some .clrstat
  | _, _ => none

/-- One line of text: "a mnemonic followed by comma-separated operands" (R68). `some none` is a line with no command;
`none` is a line the assembler refuses. -/
def parseLine (text : List Char) : Option (Option AsmLine) :=
  let line := trimBlanks (dropComment text)
  let mnemonic := line.takeWhile fun c => !isBlank c
  let operands := trimBlanks (line.dropWhile fun c => !isBlank c)
  if line = [] then some none
  else
    match mnemonic, parseCoeffName operands with
    | ['C', 'A', 'L', 'R', 'D'], some name => some (some (.calrdName name))
    | _, _ =>
      match if operands = [] then some [] else parseNumbers (splitCommas operands) with
      | some ops => (lineOf mnemonic ops).map some
      | none => none

end Sys2Proof.Machine
end

