-- ==== Sys2Proof/Machine/HostProtocol.lean ====
section
/-! DEFINITION. What the host does to SCP (60_exceptions.md R150, 30_encoding.md R69): the sequences of commands it issues, and
the sensor register each staging byte comes from (20_memory.md R41), which SCP does not decode (R48). -/

namespace Sys2Proof.Machine

/-- The sensor register that supplies STG[i] (20_memory.md R41): 0x88 + i for the 24 temperature/pressure bytes, 0xA1 for H1,
0xE1..0xE7 for the rest (0xE7 by 90_conflicts.md C1; log entry 13). -/
def sensorRegister (i : BitVec 5) : BitVec 8 :=
  if i.toNat < 24 then BitVec.ofNat 8 (0x88 + i.toNat) else if i.toNat = 24 then 0xA1 else BitVec.ofNat 8 (0xE1 + (i.toNat - 25))

/-- The staging indices 0..31 in order. -/
def stagingIndices : List (BitVec 5) := (List.range 32).map (BitVec.ofNat 5)

/-- CALLOAD (R69; `construct` and `reset` of R150): CALWR 0..31 in index order, then CALCOMMIT. -/
def calload (image : BitVec 5 → Byte) : List Instr := stagingIndices.map (fun i => .calwr i (image i)) ++ [.calcommit]

/-- MEASURE (R69; `read` of R150) on the burst bytes 0xF7..0xFE: temperature first. -/
def measure (pm pl px tm tl tx hm hl : Byte) : List Instr := [.comptr tm tl tx, .comppr pm pl px, .comphr hm hl]

/-- The host issues these commands, in this order, before anything else it was going to do. -/
def State.issue (s : State) (is : List Instr) : State := s.withHost (is.map (fun i => .command (encode i)) ++ s.host)

/-- What the sequence of commands leaves, each complete before the next (R50, R153). -/
def issueAll : List Instr → State → Result
  | [], s => .next s
  | i :: is, s =>
    match exec i s with
    | .next t => issueAll is t
    | .fault f => .fault f
    | .refused r => .refused r

end Sys2Proof.Machine
end

