-- ==== Sys2Proof/Machine/Readings.lean ====
section
/-! DEFINITION. The exact rational value each result stands for (41_compensation.md R93, R101, R107; 00_scope.md R11). -/

namespace Sys2Proof.Machine

/-- After a temperature command OUT0 stands for `t / 100` degrees Celsius (R93). -/
def celsius (out0 : BitVec 64) : Rat := (out0.toInt : Rat) / 100

/-- After a pressure command OUT0 is Q24.8: it stands for `p / 256` pascals (R101). -/
def pascals (out0 : BitVec 64) : Rat := (out0.toInt : Rat) / 256

/-- After a humidity command OUT0 is Q22.10: it stands for `H / 1024` percent relative humidity (R107). -/
def relativeHumidity (out0 : BitVec 64) : Rat := (out0.toInt : Rat) / 1024

end Sys2Proof.Machine
end

