-- ==== Sys2Proof/Safety.lean ====
section
/-! DEFINITION. What claims are stated in: what the host can observe, when a run is faulted, the invariants of SCP's state, and
which states no command can tell apart. -/

namespace Sys2Proof.Machine

/-- What the host can read at any time (10_state.md R25, R26; 60_exceptions.md R147). -/
structure HostView where
  out0 : BitVec 64
  out1 : BitVec 64
  status : Word
  deriving DecidableEq, Repr

/-- The host's reads of OUT0, OUT1 and STATUS; they change nothing (R26, R50). -/
def State.view (s : State) : HostView := ⟨s.out0, s.out1, s.statusWord⟩

/-- A run is a finite sequence of command words issued from a start state; its result is the state after the last (R153). -/
def runWords (ws : List Word) (s : State) : Result := Sys2Proof.core.run ws.length (s.withHost (ws.map HostEvent.command))

/-- A run is faulted when its final STATUS.FAULT is not 0 (R153); a safe run ends unfaulted. -/
def runFaulted (ws : List Word) (s : State) : Bool :=
  match runWords ws s with
  | .next t => t.faulted
  | .fault _ => true
  | .refused _ => true

/-- The range of H4 and H5 (40_calibration.md R84): s12 with H45_SIGN_EXTEND, u12 without. -/
def PackedRange (sx : Bool) (v : BitVec 16) : Prop :=
  if sx then -2048 ≤ v.toInt ∧ v.toInt ≤ 2047 else 0 ≤ v.toInt ∧ v.toInt ≤ 4095

/-- The fault recorded still has its cause in the state, since faults are precise and a faulted SCP does not change
(60_exceptions.md R130, R131, R136). -/
def CausePresent (s : State) : Prop :=
  match s.status.fault with
  | none => True
  | some .illegalCommand => True
  | some .noCalibration => s.status.calv = false
  | some .noFineTemperature => s.status.calv = true ∧ s.status.tfv = false
  | some .stagingIncomplete => s.wmask ≠ 0xFFFFFFFF
  | some .divOverflow => s.status.calv = true ∧ s.status.tfv = true

/-- What every step keeps. -/
structure State.Inv (s : State) : Prop where
  /-- The staging memory keeps its canonical form. -/
  memory : s.stg.wf = true
  /-- "Its value is always in the s32 range" (10_state.md R23). -/
  fine : -(2 ^ 31) ≤ s.tFine.toInt ∧ s.tFine.toInt ≤ 2 ^ 31 - 1
  /-- A committed H4 or H5 is a 12-bit value (10_state.md R21, 40_calibration.md R84). -/
  packed : s.status.calv = true → PackedRange Config.h45SignExtend s.cal.h4 ∧ PackedRange Config.h45SignExtend s.cal.h5
  /-- One accumulator is never clamped both ways (41_compensation.md R105). -/
  clamp : ¬(s.status.hclo = true ∧ s.status.hchi = true)
  /-- The recorded fault has its cause. -/
  cause : CausePresent s

/-- Two states that differ only in what no command may read: CAL while CALV = 0, T_FINE while TFV = 0, a staging byte while its
WMASK bit is 0 (10_state.md R22, R24, R28, R31). -/
structure SameReadable (s t : State) : Prop where
  out0 : s.out0 = t.out0
  out1 : s.out1 = t.out1
  status : s.status = t.status
  wmask : s.wmask = t.wmask
  host : s.host = t.host
  cal : s.status.calv = true → s.cal = t.cal
  tFine : s.status.tfv = true → s.tFine = t.tFine
  stg : ∀ i : BitVec 5, s.wmask.getLsbD i.toNat = true → s.stg.read i = t.stg.read i

end Sys2Proof.Machine
end

