-- ==== Sys2Proof/Certificates/Slice0/Obligations.lean ====
section
/-! DEFINITION. The statements for the provers, from the numbered rules of spec/. `Running s` below reads "SCP is not faulted". -/

namespace Sys2Proof.Certificates

open Sys2Proof Sys2Proof.Machine

/-! ### Vocabulary of the statements: each restates a rule apart from the model's own definitions -/

/-- SCP executes commands: STATUS.FAULT = 0 (10_state.md R30). -/
abbrev Running (s : State) : Prop := s.status.fault = none

/-- `CW[31:28]` (30_encoding.md R61). -/
def opOf (w : Word) : Nat := w.toNat / 2 ^ 28

/-- The reserved-zero bits of a format, by OP (R61): the bits of CW[27:0] marked `0` or `0x00` in its row. -/
def reservedZeroBits : Nat → Word
  | 0x1 => 0x0FFFE000
  | 0x2 => 0x0FFFFFFF
  | 0x3 => 0x0FFFFFE0
  | 0x4 => 0x0FF00000
  | 0x5 => 0x0FF00000
  | 0x6 => 0x0FFF0000
  | 0x7 => 0x0F000000
  | 0x8 => 0x0F000000
  | 0x9 => 0x0FFF0000
  | 0xF => 0x0FFFFFFF
  | _ => 0

/-- "A command word is illegal when any of these holds" (R66). -/
abbrev IllegalWord (w : Word) : Prop :=
  (0xB ≤ opOf w ∧ opOf w ≤ 0xE) ∨ w &&& reservedZeroBits (opOf w) ≠ 0 ∨ (opOf w = 0x3 ∧ 18 ≤ w.toNat % 2 ^ 5)

/-- A row of the opcode map (R64). -/
structure OpcodeRow where
  mnemonic : String
  value : Word
  mask : Word
  deriving DecidableEq, Repr

/-- The opcode map (R64). -/
def opcodeMap : List OpcodeRow :=
  [⟨"NOP", 0x00000000, 0xF0000000⟩, ⟨"CALWR", 0x10000000, 0xFFFFE000⟩, ⟨"CALCOMMIT", 0x20000000, 0xFFFFFFFF⟩,
   ⟨"CALRD", 0x30000000, 0xFFFFFFE0⟩, ⟨"COMPT", 0x40000000, 0xFFF00000⟩, ⟨"COMPP", 0x50000000, 0xFFF00000⟩,
   ⟨"COMPH", 0x60000000, 0xFFFF0000⟩, ⟨"COMPTR", 0x70000000, 0xFF000000⟩, ⟨"COMPPR", 0x80000000, 0xFF000000⟩,
   ⟨"COMPHR", 0x90000000, 0xFFFF0000⟩, ⟨"TFWR", 0xA0000000, 0xF0000000⟩, ⟨"RESET", 0xF0000000, 0xFFFFFFFF⟩]

/-- The mnemonic of a command (R64). -/
def mnemonicOf : Instr → String
  | .nop _ => "NOP"
  | .calwr _ _ => "CALWR"
  | .calcommit => "CALCOMMIT"
  | .calrd _ => "CALRD"
  | .compt _ => "COMPT"
  | .compp _ => "COMPP"
  | .comph _ => "COMPH"
  | .comptr _ _ _ => "COMPTR"
  | .comppr _ _ _ => "COMPPR"
  | .comphr _ _ => "COMPHR"
  | .tfwr _ => "TFWR"
  | .reset => "RESET"

/-- "A word decodes as instruction X when `(CW & mask_X) == match_X` and, for CALRD, `CW[4:0] <= 17`" (R64). -/
def OpcodeRow.Matches (r : OpcodeRow) (w : Word) : Prop :=
  w &&& r.mask = r.value ∧ (r.mnemonic = "CALRD" → w.toNat % 2 ^ 5 ≤ 17)

/-- The sN range (00_scope.md R8). -/
def InRange (n : Nat) (x : Int) : Prop := -(2 ^ (n - 1)) ≤ x ∧ x ≤ 2 ^ (n - 1) - 1

/-- `r` is `chk_N(x)` where the operands brought `ovf` (00_scope.md R9). -/
def IsChk (n : Nat) (x : Int) (ovf : Bool) (r : Checked) : Prop :=
  InRange n r.val ∧ (2 ^ n : Int) ∣ r.val - x ∧ (r.ovf = true ↔ ovf = true ∨ ¬InRange n x)

/-- A 16-bit little-endian field of the staging image as an unsigned number (20_memory.md R42). -/
def field (img : BitVec 5 → Byte) (i : BitVec 5) : Int := (img i).toNat + 256 * (img (i + 1)).toNat

/-- `sext_16` as 40_calibration.md R83 spells it out. -/
def signed16 (f : Int) : Int := if 32768 ≤ f then f - 65536 else f

/-- A byte read as s8 (R84, R85). -/
def signed8 (b : Byte) : Int := if 128 ≤ b.toNat then (b.toNat : Int) - 256 else b.toNat

/-- The T1..P9 part of the unpack (40_calibration.md R83). -/
structure UnpacksWords (img : BitVec 5 → Byte) (c : Cal) : Prop where
  t1 : (c.t1.toNat : Int) = field img 0
  t2 : c.t2.toInt = signed16 (field img 2)
  t3 : c.t3.toInt = signed16 (field img 4)
  p1 : (c.p1.toNat : Int) = field img 6
  p2 : c.p2.toInt = signed16 (field img 8)
  p3 : c.p3.toInt = signed16 (field img 10)
  p4 : c.p4.toInt = signed16 (field img 12)
  p5 : c.p5.toInt = signed16 (field img 14)
  p6 : c.p6.toInt = signed16 (field img 16)
  p7 : c.p7.toInt = signed16 (field img 18)
  p8 : c.p8.toInt = signed16 (field img 20)
  p9 : c.p9.toInt = signed16 (field img 22)

/-- The H4 and H5 part of the unpack (40_calibration.md R84), `h[j] = img[24 + j]`. -/
structure UnpacksNibbles (sx : Bool) (img : BitVec 5 → Byte) (c : Cal) : Prop where
  h4 : c.h4.toInt = (if sx then signed8 (img 28) else (img 28).toNat) * 16 + ((img 29).toNat % 16 : Nat)
  h5 : c.h5.toInt = (if sx then signed8 (img 30) else (img 30).toNat) * 16 + ((img 29).toNat / 16 : Nat)

/-- The H1, H2, H3 and H6 part of the unpack (40_calibration.md R85). -/
structure UnpacksBytes (img : BitVec 5 → Byte) (c : Cal) : Prop where
  h1 : c.h1 = img 24
  h2 : c.h2.toInt = signed16 (field img 25)
  h3 : c.h3 = img 27
  h6 : c.h6.toInt = signed8 (img 31)

/-- The value of the coefficient with index k, read by its type (10_state.md R21). -/
def coeffValue (c : Cal) : Nat → Int
  | 0 => c.t1.toNat
  | 1 => c.t2.toInt
  | 2 => c.t3.toInt
  | 3 => c.p1.toNat
  | 4 => c.p2.toInt
  | 5 => c.p3.toInt
  | 6 => c.p4.toInt
  | 7 => c.p5.toInt
  | 8 => c.p6.toInt
  | 9 => c.p7.toInt
  | 10 => c.p8.toInt
  | 11 => c.p9.toInt
  | 12 => c.h1.toNat
  | 13 => c.h2.toInt
  | 14 => c.h3.toNat
  | 15 => c.h4.toInt
  | 16 => c.h5.toInt
  | 17 => c.h6.toInt
  | _ => 0

/-- The fine temperature of 41_compensation.md R92 in exact integer arithmetic; `/` rounds toward minus infinity. -/
def exactFine (c : Cal) (adc : Int) : Int :=
  let t1 : Int := c.t1.toNat
  let d := adc / 16 - t1
  (adc / 8 - t1 * 2) * c.t2.toInt / 2048 + d * d / 4096 * c.t3.toInt / 16384

/-- The temperature of R92 in 0.01 degC, exactly. -/
def exactCentidegrees (tf : Int) : Int := (tf * 5 + 128) / 256

/-- The pressure denominator (step P-6 of R98), exactly. -/
def exactDenominator (c : Cal) (tf : Int) : Int :=
  let v := tf - 128000
  (2 ^ 47 + (v * v * c.p3.toInt / 256 + v * c.p2.toInt * 4096)) * c.p1.toNat / 2 ^ 33

/-- The dividend of step P-8 of R98, exactly. -/
def exactDividend (c : Cal) (adc tf : Int) : Int :=
  let v := tf - 128000
  ((1048576 - adc) * 2 ^ 31 - (v * v * c.p6.toInt + v * c.p5.toInt * 2 ^ 17 + c.p4.toInt * 2 ^ 35)) * 3125

/-- Step P-9 of R98 on the quotient p, exactly. -/
def exactPressure (c : Cal) (p : Int) : Int :=
  (p + c.p9.toInt * (p / 8192) * (p / 8192) / 2 ^ 25 + c.p8.toInt * p / 2 ^ 19) / 256 + c.p7.toInt * 16

/-- The humidity accumulator before the clamp (steps H-1 to H-3 of R104), exactly. -/
def exactAccumulator (c : Cal) (adc tf : Int) : Int :=
  let v := tf - 76800
  let a := (adc * 16384 - c.h4.toInt * 1048576 - c.h5.toInt * v + 16384) / 32768
  let e := v * c.h6.toInt / 1024 * (v * c.h3.toNat / 2048 + 32768) / 1024 + 2097152
  let x := a * ((e * c.h2.toInt + 8192) / 16384)
  x - x / 32768 * (x / 32768) / 128 * c.h1.toNat / 16

/-- Step P-8 on these operands divides -2^63 by -1 (41_compensation.md R102, 60_exceptions.md R137). -/
abbrev Overflows (s : State) (adc : Nat) : Prop :=
  (pressDividend s.cal (exact adc) (exact s.tFine.toInt)).val = -(2 ^ 63) ∧
    (pressDenominator s.cal (exact s.tFine.toInt)).val = -1

/-- A command that needs a calibration: "raised by CALRD and by every compute command" (60_exceptions.md R133). -/
def NeedsCalibration : Instr → Prop
  | .nop _ => False
  | .calwr _ _ => False
  | .calcommit => False
  | .calrd k => k.toNat ≤ 17
  | .compt _ => True
  | .compp _ => True
  | .comph _ => True
  | .comptr _ _ _ => True
  | .comppr _ _ _ => True
  | .comphr _ _ => True
  | .tfwr _ => False
  | .reset => False

/-- A command that needs a fine temperature: COMPP, COMPPR, COMPH and COMPHR (60_exceptions.md R134). -/
def NeedsFine : Instr → Prop
  | .nop _ => False
  | .calwr _ _ => False
  | .calcommit => False
  | .calrd _ => False
  | .compt _ => False
  | .compp _ => True
  | .comph _ => True
  | .comptr _ _ _ => False
  | .comppr _ _ _ => True
  | .comphr _ _ => True
  | .tfwr _ => False
  | .reset => False

/-- The raw pressure code of a pressure word: CW[19:0] of COMPP, the burst bytes of COMPPR (30_encoding.md R62, 20_memory.md R45). -/
def pressureCode (w : Word) : Nat :=
  if opOf w = 0x5 then w.toNat % 2 ^ 20
  else w.toNat / 2 ^ 16 % 256 * 2 ^ 12 + w.toNat / 2 ^ 8 % 256 * 2 ^ 4 + w.toNat / 2 ^ 4 % 16

/-- The fault the word `w` raises while SCP is running: the first check that fails, in the order of 60_exceptions.md R138, each
raised by the commands R130 lists. -/
def expectedFault (w : Word) (s : State) : Option FaultCode :=
  if IllegalWord w then some .illegalCommand
  else if opOf w ∈ [0x3, 0x4, 0x5, 0x6, 0x7, 0x8, 0x9] ∧ s.status.calv = false then some .noCalibration
  else if opOf w ∈ [0x5, 0x6, 0x8, 0x9] ∧ s.status.tfv = false then some .noFineTemperature
  else if opOf w = 0x2 ∧ s.wmask ≠ 0xFFFFFFFF then some .stagingIncomplete
  else if opOf w ∈ [0x5, 0x8] ∧ Overflows s (pressureCode w) then some .divOverflow
  else none

/-- What CALWRs of the pairs `ws`, in order, leave at index i: the last byte written there, else `old`. -/
def lastWritten (ws : List (BitVec 5 × Byte)) (i : BitVec 5) (old : Byte) : Byte :=
  ws.foldl (fun b p => if p.1 = i then p.2 else b) old

end Sys2Proof.Certificates

open Sys2Proof Sys2Proof.Machine Sys2Proof.Certificates

/-! ### Encoding -/

/-- Decoding the word of a well-formed command gives the command back, at every operand value (30_encoding.md R61, R62, R64). -/
def Obligations.DecodeOfEncode : Prop := ∀ i : Instr, i.wellFormed = true → decode (encode i) = .ok i

/-- A word that decodes is the word of the command it decodes to: no bit of it is dropped (R65, R67, R63; that ignored operand
bits are kept in the syntax is the model's choice, log entry 14). -/
def Obligations.EncodeOfDecode : Prop := ∀ (w : Word) (i : Instr), decode w = .ok i → i.wellFormed = true ∧ encode i = w

/-- R66, R132: exactly the illegal words do not decode, and one raises IllegalCommand unless SCP is already faulted, in which case it
is ignored. `issueWord w s` is SCP receiving the word w. -/
def Obligations.IllegalWordsRaiseIllegalCommand : Prop :=
  (∀ w : Word, IllegalWord w ↔ ∀ i, decode w ≠ .ok i) ∧
  ∀ (w : Word) (s : State), IllegalWord w →
    (Running s → issueWord w s = .next { s with status := { s.status with fault := some .illegalCommand } }) ∧
    (¬Running s → issueWord w s = .next s)

/-- R64: a word decodes as the command of a row exactly when it matches the row, and "No word matches two rows". -/
def Obligations.OpcodeMapDecides : Prop :=
  (∀ r ∈ opcodeMap, ∀ w : Word, r.Matches w ↔ ∃ i, decode w = .ok i ∧ mnemonicOf i = r.mnemonic) ∧
  ∀ r ∈ opcodeMap, ∀ q ∈ opcodeMap, ∀ w : Word, r.Matches w → q.Matches w → r = q

/-- Words the spec spells out decode to the command they stand for (the examples of R80, R86, R91, R97, R100, R103, R106, R110,
R120, R121, R122). -/
def Obligations.SpecExampleWordsDecode : Prop :=
  decode 0x10001D29 = .ok (.calwr 29 0x29) ∧ decode 0x20000000 = .ok .calcommit ∧ decode 0x30000002 = .ok (.calrd 2) ∧
  decode 0x4007EED0 = .ok (.compt 519888) ∧ decode 0x500655AC = .ok (.compp 415148) ∧
  decode 0x60007530 = .ok (.comph 30000) ∧ decode 0x707EED00 = .ok (.comptr 0x7E 0xED 0x00) ∧
  decode 0x80655AC0 = .ok (.comppr 0x65 0x5A 0xC0) ∧ decode 0x90007530 = .ok (.comphr 0x75 0x30) ∧
  decode 0xA001F5A6 = .ok (.tfwr 128422) ∧ decode 0x0ABCDEF1 = .ok (.nop 0xABCDEF1) ∧ decode 0xF0000000 = .ok .reset

/-- R68: the assembler's word for each line decodes to the command of the line; the lines without a number get their word always, and
exactly the operands R68 names are refused. -/
def Obligations.AssembledLineDecodes : Prop :=
  (∀ (l : AsmLine) (w : Word), assembleOne l = some w → ∃ i, decode w = .ok i ∧
    match l with
    | .nop => i = .nop 0
    | .calwr idx byte => i = .calwr (BitVec.ofInt 5 idx) (BitVec.ofInt 8 byte)
    | .calcommit => i = .calcommit
    | .calrd k => i = .calrd (BitVec.ofInt 5 k)
    | .calrdName name => i = .calrd (BitVec.ofNat 5 name.index)
    | .compt adc => i = .compt (BitVec.ofInt 20 adc)
    | .compp adc => i = .compp (BitVec.ofInt 20 adc)
    | .comph adc => i = .comph (BitVec.ofInt 16 adc)
    | .comptr m l x => i = .comptr (BitVec.ofInt 8 m) (BitVec.ofInt 8 l) (BitVec.ofInt 8 x)
    | .comppr m l x => i = .comppr (BitVec.ofInt 8 m) (BitVec.ofInt 8 l) (BitVec.ofInt 8 x)
    | .comphr m l => i = .comphr (BitVec.ofInt 8 m) (BitVec.ofInt 8 l)
    | .tfwr imm => i = .tfwr (BitVec.ofInt 28 imm)
    | .reset => i = .reset
    | .calload _ => False
    | .measure _ _ _ _ _ _ _ _ => False
    | .clrstat => False) ∧
  assembleOne .nop = some 0x00000000 ∧ assembleOne .calcommit = some 0x20000000 ∧ assembleOne .reset = some 0xF0000000 ∧
  (∀ name : CoeffName, assembleOne (.calrdName name) = some (BitVec.ofNat 32 (0x30000000 + name.index))) ∧
  (∀ idx byte, assembleOne (.calwr idx byte) = none ↔ ¬(0 ≤ idx ∧ idx ≤ 31 ∧ 0 ≤ byte ∧ byte ≤ 255)) ∧
  (∀ k, assembleOne (.calrd k) = none ↔ ¬(0 ≤ k ∧ k ≤ 17)) ∧
  (∀ adc, assembleOne (.compt adc) = none ↔ ¬(0 ≤ adc ∧ adc ≤ 2 ^ 20 - 1)) ∧
  (∀ adc, assembleOne (.compp adc) = none ↔ ¬(0 ≤ adc ∧ adc ≤ 2 ^ 20 - 1)) ∧
  (∀ adc, assembleOne (.comph adc) = none ↔ ¬(0 ≤ adc ∧ adc ≤ 65535)) ∧
  (∀ m l x, assembleOne (.comptr m l x) = none ↔
    ¬(0 ≤ m ∧ m ≤ 255 ∧ 0 ≤ l ∧ l ≤ 255 ∧ 0 ≤ x ∧ x ≤ 255)) ∧
  (∀ m l x, assembleOne (.comppr m l x) = none ↔
    ¬(0 ≤ m ∧ m ≤ 255 ∧ 0 ≤ l ∧ l ≤ 255 ∧ 0 ≤ x ∧ x ≤ 255)) ∧
  (∀ m l, assembleOne (.comphr m l) = none ↔ ¬(0 ≤ m ∧ m ≤ 255 ∧ 0 ≤ l ∧ l ≤ 255)) ∧
  (∀ imm, assembleOne (.tfwr imm) = none ↔ ¬(-(2 ^ 27) ≤ imm ∧ imm ≤ 2 ^ 27 - 1))

/-- R69: the assembler expands CALLOAD, MEASURE and CLRSTAT to the words of the listed commands, at every operand value. -/
def Obligations.PseudoInstructionsExpandAsListed : Prop :=
  (∀ img : BitVec 5 → Byte, assemble (.calload (stagingIndices.map fun i => ((img i).toNat : Int))) =
    some ((stagingIndices.map fun i => encode (.calwr i (img i))) ++ [0x20000000])) ∧
  (∀ pm pl px tm tl tx hm hl : Byte,
    assemble (.measure pm.toNat pl.toNat px.toNat tm.toNat tl.toNat tx.toNat hm.toNat hl.toNat) =
      some [encode (.comptr tm tl tx), encode (.comppr pm pl px), encode (.comphr hm hl)]) ∧
  assemble .clrstat = some [0xF0000000]

/-! ### Arithmetic and operands -/

/-- R8: `wrap_N(x)` is the unique y in the sN range with y = x (mod 2^N). -/
def Obligations.WrapIsUniqueRepresentative : Prop :=
  ∀ (n : Nat) (x y : Int), 0 < n → (wrapN n x = y ↔ InRange n y ∧ (2 ^ n : Int) ∣ y - x)

/-- R9: add, sub, mul and shl are `chk_N` of the exact result; asr is the floor of the quotient by 2^k; tdiv truncates toward
zero and raises DivOverflow only for -2^(N-1) by -1. -/
def Obligations.PrimitivesFollowTheirRules : Prop :=
  ∀ (n : Nat) (a b : Checked) (k : Nat), 0 < n →
    IsChk n (a.val + b.val) (a.ovf || b.ovf) (addN n a b) ∧
    IsChk n (a.val - b.val) (a.ovf || b.ovf) (subN n a b) ∧
    IsChk n (a.val * b.val) (a.ovf || b.ovf) (mulN n a b) ∧
    IsChk n (a.val * 2 ^ k) a.ovf (shlN n a k) ∧
    ((asr a k).val * 2 ^ k ≤ a.val ∧ a.val < ((asr a k).val + 1) * 2 ^ k ∧ (asr a k).ovf = a.ovf) ∧
    (b.val ≠ 0 → ¬(a.val = -(2 ^ (n - 1)) ∧ b.val = -1) →
      tdivN n a b = some ⟨a.val.sign * b.val.sign * ((a.val.natAbs / b.val.natAbs : Nat) : Int), a.ovf || b.ovf⟩) ∧
    (a.val = -(2 ^ (n - 1)) → b.val = -1 → tdivN n a b = none)

/-- R45: the raw codes are assembled most-significant byte first and `xlsb[3:0]` is discarded. -/
def Obligations.RawCodesAssembleMsbFirst : Prop :=
  (∀ msb lsb xlsb : Byte, (adc20 msb lsb xlsb).toNat = msb.toNat * 2 ^ 12 + lsb.toNat * 2 ^ 4 + xlsb.toNat / 2 ^ 4) ∧
  ∀ msb lsb : Byte, (adc16 msb lsb).toNat = msb.toNat * 2 ^ 8 + lsb.toNat

/-- R97, R103, R110: a raw-byte command is the command of the code its bytes make, on every state; so the low nibble of XLSB
changes nothing (R63). -/
def Obligations.RawFormsRunTheCodeForm : Prop :=
  (∀ (m l x : Byte) (adc : BitVec 20) (s : State), adc.toNat = m.toNat * 4096 + l.toNat * 16 + x.toNat / 16 →
    exec (.comptr m l x) s = exec (.compt adc) s ∧ exec (.comppr m l x) s = exec (.compp adc) s) ∧
  ∀ (m l : Byte) (adc : BitVec 16) (s : State), adc.toNat = m.toNat * 256 + l.toNat →
    exec (.comphr m l) s = exec (.comph adc) s

/-! ### The calibration unpacker -/

/-- R80: CALWR completes whenever SCP is running; it writes its byte, sets its WMASK bit and changes nothing else. -/
def Obligations.CalwrStagesOneByte : Prop :=
  ∀ (idx : BitVec 5) (byte : Byte) (s : State), Running s →
    ∃ t, exec (.calwr idx byte) s = .next t ∧
      t.stg.read idx = byte ∧ (∀ a, a ≠ idx → t.stg.read a = s.stg.read a) ∧
      (∀ i < 32, t.wmask.getLsbD i = (s.wmask.getLsbD i || decide (i = idx.toNat))) ∧
      t = { s with stg := t.stg, wmask := t.wmask }

/-- R82: with every byte staged CALCOMMIT completes; all 18 coefficients are those of R83, R84 and R85, CALV = 1, TFV = 0,
WMASK = 0, and nothing else changes. It holds for both values of H45_SIGN_EXTEND; the layout is log entry 13. -/
def Obligations.CalcommitUnpacksTheImage : Prop :=
  ∀ s : State, Running s → s.wmask = 0xFFFFFFFF →
    ∃ t, exec .calcommit s = .next t ∧
      UnpacksWords s.stg.read t.cal ∧ UnpacksNibbles Config.h45SignExtend s.stg.read t.cal ∧
      UnpacksBytes s.stg.read t.cal ∧
      t = { s with cal := t.cal, wmask := 0, status := { s.status with calv := true, tfv := false } }

/-- R135: with a byte not staged CALCOMMIT raises StagingIncomplete and changes nothing else. -/
def Obligations.CalcommitNeedsEveryByte : Prop :=
  ∀ s : State, Running s → s.wmask ≠ 0xFFFFFFFF →
    exec .calcommit s = .next { s with status := { s.status with fault := some .stagingIncomplete } }

/-- R84: H4 and H5 are the packed 12-bit values, in [-2048, 2047] with H45_SIGN_EXTEND and in [0, 4095] without; "The two readings
give different values only when `h[4][7] = 1` or `h[6][7] = 1`". For every value of the parameter. -/
def Obligations.PackedFieldsAreTwelveBits : Prop :=
  ∀ img : BitVec 5 → Byte,
    (∀ sx, UnpacksNibbles sx img (unpack sx img)) ∧
    (-2048 ≤ (unpack true img).h4.toInt ∧ (unpack true img).h4.toInt ≤ 2047) ∧
    (-2048 ≤ (unpack true img).h5.toInt ∧ (unpack true img).h5.toInt ≤ 2047) ∧
    (0 ≤ (unpack false img).h4.toInt ∧ (unpack false img).h4.toInt ≤ 4095) ∧
    (0 ≤ (unpack false img).h5.toInt ∧ (unpack false img).h5.toInt ≤ 4095) ∧
    (unpack true img ≠ unpack false img ↔ (img 28).getLsbD 7 = true ∨ (img 30).getLsbD 7 = true)

/-- R44: a change of the low nibble of STG[29] reaches H4 only, a change of its high nibble H5 only. -/
def Obligations.SharedByteFeedsEachFieldOnce : Prop :=
  ∀ (sx : Bool) (img jmg : BitVec 5 → Byte), (∀ i, i ≠ 29 → img i = jmg i) →
    ((img 29).toNat / 16 = (jmg 29).toNat / 16 → unpack sx jmg = { unpack sx img with h4 := (unpack sx jmg).h4 }) ∧
    ((img 29).toNat % 16 = (jmg 29).toNat % 16 → unpack sx jmg = { unpack sx img with h5 := (unpack sx jmg).h5 })

/-- R86: with a calibration CALRD K, K <= 17, completes; OUT0 holds the coefficient's value extended by its type, nothing else
changes. -/
def Obligations.CalrdReadsTheCoefficient : Prop :=
  ∀ (k : BitVec 5) (s : State), Running s → k.toNat ≤ 17 → s.status.calv = true →
    ∃ t, exec (.calrd k) s = .next t ∧ t.out0.toInt = coeffValue s.cal k.toNat ∧ t = { s with out0 := t.out0 }

/-! ### Temperature -/

/-- R91, R97: with a calibration COMPT and COMPTR complete; T_FINE, OUT0 and OUT1 hold the s32 results of the stage sign-extended,
TFV = 1, OVF is the stage's, nothing else changes. The stage's constants are the spec's [GK] constants (log entry 12). -/
def Obligations.TemperatureCommandsComplete : Prop :=
  ∀ (adc : BitVec 20) (s : State), Running s → s.status.calv = true →
    (∃ t, exec (.compt adc) s = .next t ∧
      InRange 32 t.out0.toInt ∧ InRange 32 t.tFine.toInt ∧
      t.out0.toInt = (compT s.cal (exact adc.toNat)).t ∧ t.tFine.toInt = (compT s.cal (exact adc.toNat)).tf ∧
      t = { s with out0 := t.out0, tFine := t.tFine, out1 := t.tFine,
                   status := { s.status with tfv := true, ovf := (compT s.cal (exact adc.toNat)).ovf } }) ∧
    ∀ msb lsb xlsb : Byte, adc20 msb lsb xlsb = adc →
      ∃ t, exec (.comptr msb lsb xlsb) s = .next t ∧ exec (.compt adc) s = .next t

/-- R92, R9: when OVF = 0 the temperature stage is the exact formula. The constants are the spec's [GK] constants (log entry 12). -/
def Obligations.TemperatureFormulaWithoutOverflow : Prop :=
  ∀ (c : Cal) (adc : BitVec 20), (compT c (exact adc.toNat)).ovf = false →
    (compT c (exact adc.toNat)).tf = exactFine c adc.toNat ∧
    (compT c (exact adc.toNat)).t = exactCentidegrees (exactFine c adc.toNat)

/-! ### Pressure -/

/-- R100, R103: with a calibration and a fine temperature, and no division of -2^63 by -1, COMPP and COMPPR complete; OUT1 = 0, and
OUT0, ZDEN and OVF are what the stage returns; nothing else changes. -/
def Obligations.PressureCommandsComplete : Prop :=
  ∀ (adc : BitVec 20) (s : State), Running s → s.status.calv = true → s.status.tfv = true →
    ¬Overflows s adc.toNat →
    (∃ t zden ovf, exec (.compp adc) s = .next t ∧
      (compP s.cal (exact adc.toNat) (exact s.tFine.toInt) = .value t.out0.toInt ovf ∧ zden = false ∨
        compP s.cal (exact adc.toNat) (exact s.tFine.toInt) = .zeroDenominator ovf ∧ t.out0 = 0 ∧ zden = true) ∧
      t = { s with out0 := t.out0, out1 := 0, status := { s.status with zden := zden, ovf := ovf } }) ∧
    ∀ msb lsb xlsb : Byte, adc20 msb lsb xlsb = adc →
      ∃ t, exec (.comppr msb lsb xlsb) s = .next t ∧ exec (.compp adc) s = .next t

/-- R98, R9: when the stage returns a value with OVF = 0 it is the exact formula on the truncated quotient, its denominator is not
0, and on the sentinel path with OVF = 0 the exact denominator is 0. The constants but 3125 and 256 are the spec's [GK] constants
(log entry 12). -/
def Obligations.PressureFormulaWithoutOverflow : Prop :=
  ∀ (c : Cal) (adc : BitVec 20) (tf : BitVec 64),
    (∀ p, compP c (exact adc.toNat) (exact tf.toInt) = .value p false →
      exactDenominator c tf.toInt ≠ 0 ∧
      p = exactPressure c ((exactDividend c adc.toNat tf.toInt).tdiv (exactDenominator c tf.toInt))) ∧
    (compP c (exact adc.toNat) (exact tf.toInt) = .zeroDenominator false → exactDenominator c tf.toInt = 0)

/-- R99: "If the denominator `var1` after step P-6 is exactly 0", the command completes with OUT0 = 0 and ZDEN = 1, raises no fault,
and OVF is that of steps P-1 to P-6. -/
def Obligations.ZeroDenominatorGivesTheSentinel : Prop :=
  ∀ (adc : BitVec 20) (s : State), Running s → s.status.calv = true → s.status.tfv = true →
    (pressDenominator s.cal (exact s.tFine.toInt)).val = 0 →
    exec (.compp adc) s = .next { s with
      out0 := 0, out1 := 0,
      status := { s.status with
        zden := true,
        ovf := (pressVar2 s.cal (exact s.tFine.toInt)).ovf || (pressDenominator s.cal (exact s.tFine.toInt)).ovf } }

/-- R102, R137: a pressure command that passes its guards raises DivOverflow exactly when the dividend is -2^63 and the denominator
-1, and then changes nothing but STATUS.FAULT. -/
def Obligations.DivOverflowExactlyMinByMinusOne : Prop :=
  ∀ (adc : BitVec 20) (s t : State), Running s → s.status.calv = true → s.status.tfv = true →
    exec (.compp adc) s = .next t →
    (t.status.fault = some .divOverflow ↔ Overflows s adc.toNat) ∧
    (Overflows s adc.toNat → t = { s with status := { s.status with fault := some .divOverflow } })

/-! ### Humidity -/

/-- R106, R110: with a calibration and a fine temperature COMPH and COMPHR always complete; OUT1 = 0, and OUT0, HCLO, HCHI and OVF
are what the stage returns on T_FINE[31:0]; nothing else changes. -/
def Obligations.HumidityCommandsComplete : Prop :=
  ∀ (adc : BitVec 16) (s : State), Running s → s.status.calv = true → s.status.tfv = true →
    (∃ t r, exec (.comph adc) s = .next t ∧
      compH s.cal (exact adc.toNat) (exact (s.tFine.setWidth 32).toInt) = r ∧ t.out0.toInt = r.h ∧
      t = { s with out0 := t.out0, out1 := 0, status := { s.status with hclo := r.hclo, hchi := r.hchi, ovf := r.ovf } }) ∧
    ∀ msb lsb : Byte, adc16 msb lsb = adc →
      ∃ t, exec (.comphr msb lsb) s = .next t ∧ exec (.comph adc) s = .next t

/-- R104, R9: when OVF = 0 the humidity stage is the exact formula, clamped and shifted. The step constants are the spec's [GK]
constants (log entry 12). -/
def Obligations.HumidityFormulaWithoutOverflow : Prop :=
  ∀ (c : Cal) (adc : BitVec 16) (tf : BitVec 32), (compH c (exact adc.toNat) (exact tf.toInt)).ovf = false →
    (compH c (exact adc.toNat) (exact tf.toInt)).h = min (max (exactAccumulator c adc.toNat tf.toInt) 0) 419430400 / 4096

/-- R105: the clamp. HCLO records that the accumulator was raised to 0, HCHI that it was lowered to 419430400; both are false when it
is in range. -/
def Obligations.ClampRecordsItsDirection : Prop :=
  ∀ (c : Cal) (adc tf : Checked),
    ((compH c adc tf).hclo = true ↔ (humAccumulator c adc tf).val < 0) ∧
    ((compH c adc tf).hchi = true ↔ 419430400 < (humAccumulator c adc tf).val) ∧
    ((compH c adc tf).hclo = true → (compH c adc tf).h = 0) ∧
    ((compH c adc tf).hchi = true → (compH c adc tf).h = 102400) ∧
    ((compH c adc tf).hclo = false → (compH c adc tf).hchi = false →
      (compH c adc tf).h = (humAccumulator c adc tf).val / 4096)

/-- R107: whatever the code, the calibration, T_FINE and OVF, a completed humidity command leaves 0 <= OUT0 <= 102400, a relative
humidity OUT0 / 1024 in [0, 100]. -/
def Obligations.HumidityReadingWithinBounds : Prop :=
  ∀ (i : Instr) (s t : State), mnemonicOf i ∈ ["COMPH", "COMPHR"] → Running s → exec i s = .next t → Running t →
    t.out0.toNat ≤ 102400 ∧ relativeHumidity t.out0 * 1024 = t.out0.toNat ∧
    0 ≤ relativeHumidity t.out0 ∧ relativeHumidity t.out0 ≤ 100

/-- R23: with T_FINE in the s32 range, as the invariant says it always is, pressure and humidity read the same integer. -/
def Obligations.BothStagesReadTheSameFine : Prop :=
  ∀ s : State, s.Inv → (fine64 s.tFine).val = (fine32 s.tFine).val ∧ (fine32 s.tFine).val = s.tFine.toInt

/-! ### Control -/

/-- R120: every word with OP = 0 is a NOP; it completes on every state, whatever its operand bits, and changes nothing. -/
def Obligations.NopDoesNothing : Prop :=
  (∀ (operand : BitVec 28) (s : State), exec (.nop operand) s = .next s) ∧
  ∀ (w : Word) (s : State), opOf w = 0 → issueWord w s = .next s

/-- R121: TFWR completes whenever SCP is running, calibrated or not; T_FINE holds the signed 28-bit immediate, TFV = 1, nothing else
changes; its word is 0xA above CW[27:0] = IMM. -/
def Obligations.TfwrWritesTheImmediate : Prop :=
  ∀ (imm : BitVec 28) (s : State), Running s →
    decode (0xA#4 ++ imm) = .ok (.tfwr imm) ∧
    ∃ t, exec (.tfwr imm) s = .next t ∧ t.tFine.toInt = imm.toInt ∧ -(2 ^ 27) ≤ t.tFine.toInt ∧ t.tFine.toInt ≤ 2 ^ 27 - 1 ∧
      t = { s with tFine := t.tFine, status := { s.status with tfv := true } }

/-- R122, R31: RESET completes on EVERY state, faulted or not, as does power-on; STATUS reads 0, WMASK, OUT0 and OUT1 are 0. CAL, T_FINE
and STG are unspecified, so nothing is said of them. The host's remaining events stay (the model's own field, log entry 1). -/
def Obligations.ResetClearsTheVisibleState : Prop :=
  decode 0xF0000000 = .ok .reset ∧
  ∀ s : State, ∃ t, exec .reset s = .next t ∧
    t.statusWord = 0 ∧ t.status = Status.zero ∧ t.wmask = 0 ∧ t.out0 = 0 ∧ t.out1 = 0 ∧ t.host = s.host ∧
    ∀ rest, s.host = .powerOn :: rest → step s = .next { t with host := rest }

/-! ### Faults -/

/-- R133, R134: a command that needs a calibration raises NoCalibration without one, whatever TFV is; one that needs a fine temperature
raises NoFineTemperature with a calibration and no fine temperature; nothing but STATUS.FAULT changes. -/
def Obligations.GuardsRaiseTheirFault : Prop :=
  ∀ (i : Instr) (s : State), Running s →
    (NeedsCalibration i → s.status.calv = false →
      exec i s = .next { s with status := { s.status with fault := some .noCalibration } }) ∧
    (NeedsFine i → s.status.calv = true → s.status.tfv = false →
      exec i s = .next { s with status := { s.status with fault := some .noFineTemperature } })

/-- R138, R130: a word issued while SCP runs records the first check of the list that fails, and no fault if none does; issued while SCP
is faulted it is ignored and raises nothing, unless it is 0xF0000000. -/
def Obligations.FaultPriorityIsTheListed : Prop :=
  ∀ (w : Word) (s : State), ∃ t, issueWord w s = .next t ∧
    (Running s → t.status.fault = expectedFault w s) ∧
    (¬Running s → w ≠ 0xF0000000 → t = s)

/-- R131: a word that raises a fault writes its code to STATUS.FAULT and nothing else; so does a command run by itself. -/
def Obligations.FaultsArePrecise : Prop :=
  (∀ (w : Word) (s t : State), Running s → issueWord w s = .next t → ¬Running t →
    t = { s with status := { s.status with fault := t.status.fault } }) ∧
  ∀ (i : Instr) (s t : State), Running s → exec i s = .next t → ¬Running t →
    t = { s with status := { s.status with fault := t.status.fault } }

/-- R136: while SCP is faulted the word 0xF0000000 executes as RESET does, and every other word, legal or illegal, changes nothing. -/
def Obligations.FaultedIgnoresAllButReset : Prop :=
  ∀ (w : Word) (s : State), ¬Running s →
    (w ≠ 0xF0000000 → issueWord w s = .next s) ∧
    (w = 0xF0000000 → issueWord w s = exec .reset s)

/-- R140, R153: through any number of steps in which the host neither issues RESET nor powers SCP on, a faulted SCP stays exactly as it
is; only the host's list shortens. -/
def Obligations.FaultStaysUntilReset : Prop :=
  ∀ (n : Nat) (s : State), ¬Running s →
    (∀ e ∈ s.host.take n, e ≠ .powerOn ∧ e ≠ .command 0xF0000000) →
    Sys2Proof.core.run n s = .next { s with host := s.host.drop n }

/-! ### The machine -/

/-- A step takes the host's next word off the host's list (the list is the model's, log entry 1) and SCP receives that word; a word
that decodes to a command runs that command's exec. -/
def Obligations.StepRunsTheDecodedCommand : Prop :=
  ∀ (s : State) (w : Word) (rest : List HostEvent), s.host = .command w :: rest →
    step s = issueWord w { s with host := rest } ∧
    ∀ i : Instr, decode w = .ok i → step s = exec i { s with host := rest }

/-- With nothing issued SCP waits (R160). That a waiting step changes nothing is the model's inference (log entry 2, DEDUCED), and that a
word placed by `withFetchWord` is what the very next step runs is the model's choice (log entry 1, DESIGN CHOICE). -/
def Obligations.StepWaitsForTheHost : Prop :=
  (∀ s : State, s.host = [] → step s = .next s) ∧
  ∀ (s : State) (w : Word) (i : Instr), decode w = .ok i → step (s.withFetchWord 32 w.toNat) = exec i s

/-- SCP never stops: every state steps to a next state (R65: decoding is total; R131: a fault is a state SCP goes on from). -/
def Obligations.EveryStepAnswersNext : Prop := ∀ s : State, ∃ t, step s = .next t

/-- R31: State.reset has every value R31 states. CAL, T_FINE and STG are unspecified there, so nothing is said of them. -/
def Obligations.ResetStateValues : Prop :=
  State.reset.statusWord = 0 ∧ State.reset.wmask = 0 ∧ State.reset.out0 = 0 ∧ State.reset.out1 = 0 ∧ Running State.reset

/-- The invariant holds at reset. That its memory and T_FINE clauses hold there rests on the values the model names (log entries 4, 5). -/
def Obligations.InvariantAtReset : Prop := State.reset.Inv

/-- Every step keeps the invariant: canonical staging memory; T_FINE in the s32 range (R23); committed H4 and H5 twelve-bit (R84); HCLO and
HCHI never both 1 (R105); the recorded fault still has its cause (R131, R136). That a reset leaves T_FINE in range is log entry 7. -/
def Obligations.StepKeepsTheInvariant : Prop := ∀ s t : State, s.Inv → step s = .next t → t.Inv

/-- R31, U7: "No rule can read that state before it is written". Two states that differ only in CAL while CALV = 0, T_FINE while TFV = 0 and
staging bytes whose WMASK bit is 0 step to two such states, so no run ever shows the difference. -/
def Obligations.UnspecifiedStateIsNeverRead : Prop :=
  ∀ s t s' t' : State, SameReadable s t → step s = .next s' → step t = .next t' → SameReadable s' t' ∧ s'.view = t'.view

/-- R22, R32: CAL keeps its value across every command except CALCOMMIT and RESET, and T_FINE across every command except COMPT, COMPTR,
TFWR and RESET; a command that raises a fault leaves CAL unchanged. -/
def Obligations.CalibrationAndFinePersist : Prop :=
  ∀ (i : Instr) (s t : State), exec i s = .next t →
    (i ≠ .calcommit → i ≠ .reset → t.cal = s.cal) ∧
    (mnemonicOf i ∉ ["COMPT", "COMPTR", "TFWR", "RESET"] → t.tFine = s.tFine) ∧
    (Running s → ¬Running t → t.cal = s.cal)

/-- R25: OUT0 and OUT1 are written only by the commands the table names: OUT0 by CALRD, the compute commands and RESET, OUT1 by the compute
commands and RESET; after a completed temperature command OUT1 is T_FINE, after a pressure or humidity command or RESET it is 0. -/
def Obligations.ResultRegistersWrittenAsListed : Prop :=
  ∀ (i : Instr) (s t : State), exec i s = .next t →
    (mnemonicOf i ∈ ["NOP", "CALWR", "CALCOMMIT", "TFWR"] → t.out0 = s.out0) ∧
    (mnemonicOf i ∈ ["NOP", "CALWR", "CALCOMMIT", "TFWR", "CALRD"] → t.out1 = s.out1) ∧
    (Running s → Running t → mnemonicOf i ∈ ["COMPT", "COMPTR"] → t.out1 = t.tFine) ∧
    (Running s → Running t → mnemonicOf i ∈ ["COMPP", "COMPPR", "COMPH", "COMPHR"] → t.out1 = 0) ∧
    (i = .reset → t.out0 = 0 ∧ t.out1 = 0) ∧
    (¬Running t → t.out0 = s.out0 ∧ t.out1 = s.out1)

/-- R26, R28: each STATUS field and the staging state is written only by the commands the tables name, FAULT included: NOP,
CALWR and TFWR, which raise no fault, leave it; a faulted SCP keeps its code under every command but RESET; RESET clears every
field. That no command touches the host's list (the model's own field) is log entry 1. -/
def Obligations.StatusFieldsWrittenAsListed : Prop :=
  (∀ (i : Instr) (s t : State), exec i s = .next t → i ≠ .reset →
    (i ≠ .calcommit → t.status.calv = s.status.calv) ∧
    (mnemonicOf i ∉ ["COMPT", "COMPTR", "TFWR", "CALCOMMIT"] → t.status.tfv = s.status.tfv) ∧
    (mnemonicOf i ∉ ["COMPP", "COMPPR"] → t.status.zden = s.status.zden) ∧
    (mnemonicOf i ∉ ["COMPH", "COMPHR"] → t.status.hclo = s.status.hclo ∧ t.status.hchi = s.status.hchi) ∧
    (mnemonicOf i ∉ ["COMPT", "COMPTR", "COMPP", "COMPPR", "COMPH", "COMPHR"] → t.status.ovf = s.status.ovf) ∧
    (mnemonicOf i ∈ ["NOP", "CALWR", "TFWR"] → t.status.fault = s.status.fault) ∧
    (¬Running s → t.status.fault = s.status.fault) ∧
    (mnemonicOf i ≠ "CALWR" → ∀ a, t.stg.read a = s.stg.read a) ∧
    (mnemonicOf i ∉ ["CALWR", "CALCOMMIT"] → t.wmask = s.wmask) ∧
    t.host = s.host) ∧
  ∀ s t : State, exec .reset s = .next t → t.status = Status.zero ∧ t.wmask = 0 ∧ t.host = s.host

/-- R26, R130: the STATUS word holds each field at its bits, STGF reads as WMASK = 0xFFFFFFFF, bits 7 and 31:12 read 0, and FAULT is a code
0..5. -/
def Obligations.StatusWordLayout : Prop :=
  ∀ s : State,
    s.statusWord.getLsbD 0 = s.status.calv ∧ s.statusWord.getLsbD 1 = s.status.tfv ∧ s.statusWord.getLsbD 2 = s.status.zden ∧
    s.statusWord.getLsbD 3 = s.status.hclo ∧ s.statusWord.getLsbD 4 = s.status.hchi ∧ s.statusWord.getLsbD 5 = s.status.ovf ∧
    (s.statusWord.getLsbD 6 = true ↔ s.wmask = 0xFFFFFFFF) ∧ s.statusWord.getLsbD 7 = false ∧
    s.statusWord.toNat / 2 ^ 12 = 0 ∧
    s.statusWord.toNat / 2 ^ 8 % 16 =
      (match s.status.fault with
       | none => 0
       | some .illegalCommand => 1
       | some .noCalibration => 2
       | some .noFineTemperature => 3
       | some .stagingIncomplete => 4
       | some .divOverflow => 5)

/-- R81, R28, R80: CALWRs of any bytes in any order, from a running SCP, leave at each index the last byte written there and the WMASK bits of the
indices written set; nothing else changes. -/
def Obligations.StagingInAnyOrder : Prop :=
  ∀ (ws : List (BitVec 5 × Byte)) (s : State), Running s →
    ∃ t, issueAll (ws.map fun p => .calwr p.1 p.2) s = .next t ∧
      (∀ i, t.stg.read i = lastWritten ws i (s.stg.read i)) ∧
      (∀ i : BitVec 5, t.wmask.getLsbD i.toNat = true ↔ s.wmask.getLsbD i.toNat = true ∨ ∃ p ∈ ws, p.1 = i) ∧
      t = { s with stg := t.stg, wmask := t.wmask }

/-- R69, R82: CALLOAD of any image, from a running SCP, leaves the coefficients that image unpacks to, CALV = 1, TFV = 0, WMASK = 0, whatever was
staged before; so the same image loaded again gives the same CAL (R47). -/
def Obligations.CalloadLoadsTheImage : Prop :=
  ∀ (img : BitVec 5 → Byte) (s : State), Running s →
    ∃ t, issueAll (calload img) s = .next t ∧ t.cal = unpack Config.h45SignExtend img ∧ (∀ i, t.stg.read i = img i) ∧
      t = { s with cal := t.cal, stg := t.stg, wmask := 0, status := { s.status with calv := true, tfv := false } }

/-- R50, R153: the host's words run in the order it issues them, each complete before the next: a run of as many steps as commands issued is the
commands' execs one after another. The host's list is the model's own (log entry 1, DESIGN CHOICE). -/
def Obligations.IssuedCommandsRunInOrder : Prop :=
  ∀ (is : List Instr) (s : State), (∀ i ∈ is, i.wellFormed = true) → Sys2Proof.core.run is.length (s.issue is) = issueAll is s

/-- R93, R101: the temperature reading is exactly t / 100 and the pressure reading exactly p / 256, with no clamp or truncation of p. -/
def Obligations.ReadingsAreTheExactRationals : Prop :=
  (∀ (adc : BitVec 20) (s t : State), Running s → exec (.compt adc) s = .next t → Running t →
    celsius t.out0 * 100 = (compT s.cal (exact adc.toNat)).t) ∧
  ∀ (adc : BitVec 20) (s t : State) (p : Int) (o : Bool), Running s → exec (.compp adc) s = .next t → Running t →
    compP s.cal (exact adc.toNat) (exact s.tFine.toInt) = .value p o → pascals t.out0 * 256 = p
end

