-- ==== Sys2Proof/Laws/Arith.lean ====
section
/-! SUPPORT. The primitives of 00_scope.md R9: what each answers, said once. -/

namespace Sys2Proof.Machine

@[simp] theorem exact_val (x : Int) : (exact x).val = x := rfl
@[simp] theorem exact_ovf (x : Int) : (exact x).ovf = false := rfl
@[simp] theorem asr_val (a : Checked) (k : Nat) : (asr a k).val = a.val / 2 ^ k := rfl
@[simp] theorem asr_ovf (a : Checked) (k : Nat) : (asr a k).ovf = a.ovf := rfl
@[simp] theorem addN_ovf (n : Nat) (a b : Checked) : (addN n a b).ovf = (a.ovf || b.ovf || !fitsN n (a.val + b.val)) := rfl
@[simp] theorem subN_ovf (n : Nat) (a b : Checked) : (subN n a b).ovf = (a.ovf || b.ovf || !fitsN n (a.val - b.val)) := rfl
@[simp] theorem mulN_ovf (n : Nat) (a b : Checked) : (mulN n a b).ovf = (a.ovf || b.ovf || !fitsN n (a.val * b.val)) := rfl
@[simp] theorem shlN_ovf (n : Nat) (a : Checked) (k : Nat) : (shlN n a k).ovf = (a.ovf || !fitsN n (a.val * 2 ^ k)) := rfl

theorem fitsN_iff (n : Nat) (x : Int) : fitsN n x = true ↔ -(2 ^ (n - 1)) ≤ x ∧ x ≤ 2 ^ (n - 1) - 1 := by
  unfold fitsN
  exact decide_eq_true_iff

theorem wrapN_eq_bmod (n : Nat) (x : Int) : wrapN n x = x.bmod (2 ^ n) := by unfold wrapN; rfl

theorem addN_val (n : Nat) (a b : Checked) : (addN n a b).val = wrapN n (a.val + b.val) := rfl
theorem subN_val (n : Nat) (a b : Checked) : (subN n a b).val = wrapN n (a.val - b.val) := rfl
theorem mulN_val (n : Nat) (a b : Checked) : (mulN n a b).val = wrapN n (a.val * b.val) := rfl
theorem shlN_val (n : Nat) (a : Checked) (k : Nat) : (shlN n a k).val = wrapN n (a.val * 2 ^ k) := rfl

/-- A wrapped value is in the sN range (R8). -/
theorem wrapN_range {n : Nat} (hn : 0 < n) (x : Int) : -(2 ^ (n - 1)) ≤ wrapN n x ∧ wrapN n x ≤ 2 ^ (n - 1) - 1 := by
  obtain ⟨k, rfl⟩ : ∃ k, n = k + 1 := ⟨n - 1, by omega⟩
  have hpos : 0 < 2 ^ (k + 1) := by positivity
  have h1 := Int.le_bmod (x := x) hpos
  have h2 := Int.bmod_lt (x := x) hpos
  have h3 : ((2 ^ (k + 1) : Nat) : Int) = 2 * 2 ^ k := by push_cast; ring
  have h4 : (0 : Int) < 2 ^ k := by positivity
  simp only [wrapN_eq_bmod, Nat.add_sub_cancel]
  omega

/-- An integer already in the sN range is not changed by wrapping (R8). -/
theorem wrapN_of_fits {n : Nat} (hn : 0 < n) {x : Int} (h : fitsN n x = true) : wrapN n x = x := by
  obtain ⟨k, rfl⟩ : ∃ k, n = k + 1 := ⟨n - 1, by omega⟩
  rw [fitsN_iff, Nat.add_sub_cancel] at h
  rw [wrapN_eq_bmod]
  have h3 : ((2 ^ (k + 1) : Nat) : Int) = 2 * 2 ^ k := by push_cast; ring
  exact Int.bmod_eq_of_le (by omega) (by omega)

/-- With `ovf` still false an addition is exact (R9), and so were its operands. -/
theorem addN_exact {n : Nat} (hn : 0 < n) {a b : Checked} (h : (addN n a b).ovf = false) :
    a.ovf = false ∧ b.ovf = false ∧ (addN n a b).val = a.val + b.val := by
  simp only [addN_ovf, Bool.or_eq_false_iff, Bool.not_eq_false'] at h
  exact ⟨h.1.1, h.1.2, wrapN_of_fits hn h.2⟩

/-- With `ovf` still false a subtraction is exact (R9). -/
theorem subN_exact {n : Nat} (hn : 0 < n) {a b : Checked} (h : (subN n a b).ovf = false) :
    a.ovf = false ∧ b.ovf = false ∧ (subN n a b).val = a.val - b.val := by
  simp only [subN_ovf, Bool.or_eq_false_iff, Bool.not_eq_false'] at h
  exact ⟨h.1.1, h.1.2, wrapN_of_fits hn h.2⟩

/-- With `ovf` still false a multiplication is exact (R9). -/
theorem mulN_exact {n : Nat} (hn : 0 < n) {a b : Checked} (h : (mulN n a b).ovf = false) :
    a.ovf = false ∧ b.ovf = false ∧ (mulN n a b).val = a.val * b.val := by
  simp only [mulN_ovf, Bool.or_eq_false_iff, Bool.not_eq_false'] at h
  exact ⟨h.1.1, h.1.2, wrapN_of_fits hn h.2⟩

/-- With `ovf` still false a left shift is exact (R9). -/
theorem shlN_exact {n : Nat} (hn : 0 < n) {a : Checked} {k : Nat} (h : (shlN n a k).ovf = false) :
    a.ovf = false ∧ (shlN n a k).val = a.val * 2 ^ k := by
  simp only [shlN_ovf, Bool.or_eq_false_iff, Bool.not_eq_false'] at h
  exact ⟨h.1, wrapN_of_fits hn h.2⟩

/-! ### A value that is exact while nothing has overflowed

`Tracks a x`: while `ovf` is false, `a` is the exact integer x. Each primitive keeps it (R9: "For inputs where `ovf` stays false,
these primitives equal exact integer arithmetic"), so a stage tracks its formula, read off term by term. -/

def Tracks (a : Checked) (x : Int) : Prop := a.ovf = false → a.val = x

theorem tracks_exact (x : Int) : Tracks (exact x) x := fun _ => rfl

theorem Tracks.add {n : Nat} (hn : 0 < n) {a b : Checked} {x y : Int} (ha : Tracks a x) (hb : Tracks b y) :
    Tracks (addN n a b) (x + y) := fun h => by
  obtain ⟨h1, h2, h3⟩ := addN_exact hn h
  rw [h3, ha h1, hb h2]

theorem Tracks.sub {n : Nat} (hn : 0 < n) {a b : Checked} {x y : Int} (ha : Tracks a x) (hb : Tracks b y) :
    Tracks (subN n a b) (x - y) := fun h => by
  obtain ⟨h1, h2, h3⟩ := subN_exact hn h
  rw [h3, ha h1, hb h2]

theorem Tracks.mul {n : Nat} (hn : 0 < n) {a b : Checked} {x y : Int} (ha : Tracks a x) (hb : Tracks b y) :
    Tracks (mulN n a b) (x * y) := fun h => by
  obtain ⟨h1, h2, h3⟩ := mulN_exact hn h
  rw [h3, ha h1, hb h2]

theorem Tracks.shl {n : Nat} (hn : 0 < n) {a : Checked} {x : Int} (ha : Tracks a x) (k : Nat) :
    Tracks (shlN n a k) (x * 2 ^ k) := fun h => by
  obtain ⟨h1, h2⟩ := shlN_exact hn h
  rw [h2, ha h1]

theorem Tracks.asr {a : Checked} {x : Int} (ha : Tracks a x) (k : Nat) : Tracks (asr a k) (x / 2 ^ k) := fun h => by
  rw [asr_val, ha h]

/-- A code in its s32 container is the unsigned number its bits spell (30_encoding.md R62). -/
theorem code_eq {w : Nat} (hw : w < 32) (adc : BitVec w) : code adc = exact (adc.toNat : Int) := by
  have h := adc.isLt
  have h32 : 2 ^ w ≤ 2 ^ 31 := Nat.pow_le_pow_right (by norm_num) (by omega)
  rw [code, BitVec.toInt_eq_toNat_of_lt, BitVec.zeroExtend_eq_setWidth, BitVec.toNat_setWidth, Nat.mod_eq_of_lt (by omega)]
  rw [BitVec.zeroExtend_eq_setWidth, BitVec.toNat_setWidth, Nat.mod_eq_of_lt (by omega)]
  omega

/-- An unsigned coefficient widened to a wider stage keeps its value (41_compensation.md R90 step 5). -/
theorem unsignedCoeff_eq {n w : Nat} (hw : w < n) (v : BitVec w) : unsignedCoeff n v = exact (v.toNat : Int) := by
  have h := v.isLt
  obtain ⟨m, rfl⟩ : ∃ m, n = m + 1 := ⟨n - 1, by omega⟩
  have hm : 2 ^ w ≤ 2 ^ m := Nat.pow_le_pow_right (by norm_num) (by omega)
  have hs : 2 ^ (m + 1) = 2 * 2 ^ m := by ring
  rw [unsignedCoeff, BitVec.toInt_eq_toNat_of_lt, BitVec.zeroExtend_eq_setWidth, BitVec.toNat_setWidth,
    Nat.mod_eq_of_lt (by omega)]
  rw [BitVec.zeroExtend_eq_setWidth, BitVec.toNat_setWidth, Nat.mod_eq_of_lt (by omega)]
  omega

/-- A signed coefficient widened to a wider stage keeps its value (R90 step 5). -/
theorem signedCoeff_eq {n w : Nat} (hw : w ≤ n) (v : BitVec w) : signedCoeff n v = exact v.toInt := by
  rw [signedCoeff, BitVec.toInt_signExtend_of_le hw]

/-- An unsigned coefficient tracks its number. -/
theorem tracks_unsigned {n w : Nat} (hw : w < n) (v : BitVec w) : Tracks (unsignedCoeff n v) (v.toNat : Int) := by
  rw [unsignedCoeff_eq hw]
  exact tracks_exact _

/-- A signed coefficient tracks its number. -/
theorem tracks_signed {n w : Nat} (hw : w ≤ n) (v : BitVec w) : Tracks (signedCoeff n v) v.toInt := by
  rw [signedCoeff_eq hw]
  exact tracks_exact _

/-- A value in the sw range written into a register of w bits is the value read back. -/
theorem sext_toInt {w : Nat} (hw : 0 < w) {x : Int} (h : fitsN w x = true) : (sext w x).toInt = x := by
  rw [sext, BitVec.toInt_ofInt, ← wrapN_eq_bmod]
  exact wrapN_of_fits hw h

end Sys2Proof.Machine
end

