-- ==== Sys2Proof/Laws/Stages.lean ====
section
/-! SUPPORT. The stage functions, unfolded once: their results field by field, their ranges, and how the pressure stage ends. -/

namespace Sys2Proof.Machine

theorem compT_tf (c : Cal) (adc : Checked) : (compT c adc).tf = (tempFine c adc).val := by simp only [compT]
theorem compT_t (c : Cal) (adc : Checked) : (compT c adc).t = (tempCentidegrees (tempFine c adc)).val := by simp only [compT]
theorem compT_ovf (c : Cal) (adc : Checked) : (compT c adc).ovf = (tempCentidegrees (tempFine c adc)).ovf := by simp only [compT]

theorem compH_h (c : Cal) (adc tf : Checked) :
    (compH c adc tf).h = min (max (humAccumulator c adc tf).val 0) 419430400 / 2 ^ 12 := by simp only [compH, asr_val]
theorem compH_hclo (c : Cal) (adc tf : Checked) : (compH c adc tf).hclo = decide ((humAccumulator c adc tf).val < 0) := by
  simp only [compH]
theorem compH_hchi (c : Cal) (adc tf : Checked) :
    (compH c adc tf).hchi = decide (419430400 < (humAccumulator c adc tf).val) := by simp only [compH]
theorem compH_ovf (c : Cal) (adc tf : Checked) : (compH c adc tf).ovf = (humAccumulator c adc tf).ovf := by simp only [compH]

/-- The clamp leaves 0..102400 whatever the accumulator was (R105, R107). -/
theorem compH_h_bounds (c : Cal) (adc tf : Checked) : 0 ≤ (compH c adc tf).h ∧ (compH c adc tf).h ≤ 102400 := by
  rw [compH_h]
  omega

/-- One accumulator is not clamped both ways (R105). -/
theorem compH_not_both (c : Cal) (adc tf : Checked) : ¬((compH c adc tf).hclo = true ∧ (compH c adc tf).hchi = true) := by
  simp only [compH_hclo, compH_hchi, decide_eq_true_eq]
  omega

/-- The fine temperature is an s32 (41_compensation.md R92). -/
theorem compT_tf_fits (c : Cal) (adc : Checked) : fitsN 32 (compT c adc).tf = true := by
  have h := wrapN_range (n := 32) (by norm_num) ((tempVar1 c adc).val + (tempVar2 c adc).val)
  rw [compT_tf, tempFine, addN_val]
  rw [fitsN_iff]
  exact h

/-- The temperature is an s32 (R92). -/
theorem compT_t_fits (c : Cal) (adc : Checked) : fitsN 32 (compT c adc).t = true := by
  have h := wrapN_range (n := 32) (by norm_num) ((mulN 32 (tempFine c adc) (exact 5)).val + (exact 128).val)
  rw [compT_t, tempCentidegrees, asr_val, addN_val]
  rw [fitsN_iff]
  omega

/-- An s32 value is an s64 value. -/
theorem fits64_of_fits32 {x : Int} (h : fitsN 32 x = true) : fitsN 64 x = true := by
  rw [fitsN_iff] at h ⊢
  omega

/-- The pressure stage's result is an s64 (R98, R101). -/
theorem pressFinish_fits (c : Cal) (p : Checked) : fitsN 64 (pressFinish c p).val = true := by
  have h := wrapN_range (n := 64) (by norm_num)
    ((asr (addN 64 (addN 64 p (asr (mulN 64 (mulN 64 (signedCoeff 64 c.p9) (asr p 13)) (asr p 13)) 25))
      (asr (mulN 64 (signedCoeff 64 c.p8) p) 19)) 8).val + (shlN 64 (signedCoeff 64 c.p7) 4).val)
  rw [pressFinish, addN_val]
  rw [fitsN_iff]
  exact h

/-- The sentinel path: the denominator is 0 (R99). -/
theorem compP_zero {c : Cal} {adc tf : Checked} (h : (pressDenominator c tf).val = 0) :
    compP c adc tf = .zeroDenominator ((pressVar2 c tf).ovf || (pressDenominator c tf).ovf) := by
  simp only [compP, h, if_true]

/-- Away from the sentinel the stage divides (R98, R102). -/
theorem compP_nonzero {c : Cal} {adc tf : Checked} (h : (pressDenominator c tf).val ≠ 0) :
    compP c adc tf =
      match tdivN 64 (pressDividend c adc tf) (pressDenominator c tf) with
      | none => .divOverflow
      | some p => .value (pressFinish c p).val (pressFinish c p).ovf := if_neg h

end Sys2Proof.Machine
end

