-- ==== Sys2Proof/Laws/Memory.lean ====
section
/-! SUPPORT. The staging memory: a read after a write, and that every memory operation keeps the canonical form. -/

namespace Sys2Proof.Machine

@[simp] theorem Memory.lookup_nil (i : Nat) : Memory.lookup [] i = Memory.unlisted := rfl

@[simp] theorem Memory.lookup_cons (c : Host.Cell) (m : Memory) (i : Nat) :
    Memory.lookup (c :: m) i = if c.1 = i then c.2 else m.lookup i := rfl

/-- Dropping the cells of another index does not change what an index reads as. -/
theorem Memory.lookup_filter_ne (m : Memory) {i j : Nat} (h : j ≠ i) :
    Memory.lookup (m.filter fun c => c.1 != i) j = m.lookup j := by
  induction m with
  | nil => rfl
  | cons c m ih => by_cases hc : c.1 = i <;> simp [hc, ih, h.symm]

/-- With its cells dropped an index reads as unlisted. -/
theorem Memory.lookup_filter_self (m : Memory) (i : Nat) :
    Memory.lookup (m.filter fun c => c.1 != i) i = Memory.unlisted := by
  induction m with
  | nil => rfl
  | cons c m ih => by_cases hc : c.1 = i <;> simp [hc, ih]

/-- A cell put into a memory that lists its index nowhere is the one read there. -/
theorem Memory.lookup_insertCell (c : Host.Cell) (m : Memory) (h : ∀ d ∈ m, d.1 ≠ c.1) (j : Nat) :
    Memory.lookup (Memory.insertCell c m) j = if c.1 = j then c.2 else m.lookup j := by
  induction m with
  | nil => rfl
  | cons d m ih =>
    have hd : d.1 ≠ c.1 := h d (by simp)
    unfold Memory.insertCell
    split
    · rfl
    · rw [Memory.lookup_cons, ih fun e he => h e (by simp [he]), Memory.lookup_cons]
      split <;> split <;> simp_all

theorem Memory.lookup_write (m : Memory) (i : BitVec 5) (b : Byte) (j : Nat) :
    (m.write i b).lookup j = if i.toNat = j then b else m.lookup j := by
  unfold Memory.write
  by_cases hj : i.toNat = j
  · subst hj
    by_cases hb : b = Memory.unlisted
    · simp [hb, Memory.lookup_filter_self]
    · simp [hb, Memory.lookup_insertCell]
  · by_cases hb : b = Memory.unlisted
    · simp [hb, hj, Memory.lookup_filter_ne m (Ne.symm hj)]
    · simp [hb, hj, Memory.lookup_insertCell, Memory.lookup_filter_ne m (Ne.symm hj)]

/-- A read after a write to the same index gives the byte written (20_memory.md R40). -/
@[simp] theorem Memory.read_write_same (m : Memory) (i : BitVec 5) (b : Byte) : (m.write i b).read i = b := by
  simp [Memory.read, Memory.lookup_write]

/-- A write leaves every other index alone. -/
theorem Memory.read_write_other (m : Memory) {i j : BitVec 5} (b : Byte) (h : j ≠ i) :
    (m.write i b).read j = m.read j := by
  have : i.toNat ≠ j.toNat := fun e => h (BitVec.eq_of_toNat_eq e.symm)
  simp [Memory.read, Memory.lookup_write, this]

theorem Memory.wf_iff (m : Memory) :
    m.wf = true ↔ m.Pairwise (fun c d => c.1 < d.1) ∧ ∀ c ∈ m, c.1 < 32 ∧ c.2 ≠ Memory.unlisted := by
  simp [Memory.wf]

theorem Memory.mem_insertCell {c e : Host.Cell} {m : Memory} (h : e ∈ Memory.insertCell c m) : e = c ∨ e ∈ m := by
  induction m with
  | nil => simpa [Memory.insertCell] using h
  | cons d m ih =>
    unfold Memory.insertCell at h
    split at h
    · simpa using h
    · rcases List.mem_cons.mp h with rfl | h
      · simp
      · rcases ih h with h | h <;> simp [h]

theorem Memory.pairwise_insertCell (c : Host.Cell) (m : Memory) (hp : m.Pairwise fun c d => c.1 < d.1)
    (hc : ∀ d ∈ m, d.1 ≠ c.1) : (Memory.insertCell c m).Pairwise fun c d => c.1 < d.1 := by
  induction m with
  | nil => simp [Memory.insertCell]
  | cons d m ih =>
    have hd : d.1 ≠ c.1 := hc d (by simp)
    obtain ⟨hdm, hm⟩ := List.pairwise_cons.mp hp
    unfold Memory.insertCell
    split
    · rename_i hlt
      refine List.pairwise_cons.mpr ⟨fun e he => ?_, hp⟩
      rcases List.mem_cons.mp he with rfl | he
      · exact hlt
      · exact hlt.trans (hdm e he)
    · refine List.pairwise_cons.mpr ⟨fun e he => ?_, ih hm fun e he => hc e (by simp [he])⟩
      rcases Memory.mem_insertCell he with rfl | he
      · omega
      · exact hdm e he

/-- A write keeps the canonical form. -/
theorem Memory.write_wf (m : Memory) (i : BitVec 5) (b : Byte) (h : m.wf = true) : (m.write i b).wf = true := by
  rw [Memory.wf_iff] at h ⊢
  obtain ⟨hp, hm⟩ := h
  have hp' := hp.filter (fun c => c.1 != i.toNat)
  have hm' : ∀ c ∈ m.filter (fun c => c.1 != i.toNat), c.1 < 32 ∧ c.2 ≠ Memory.unlisted :=
    fun c hc => hm c (List.mem_filter.mp hc).1
  unfold Memory.write
  by_cases hb : b = Memory.unlisted
  · simpa [hb] using ⟨hp', fun c d hc hne => hm (c, d) hc⟩
  · simp only [hb, if_false]
    refine ⟨Memory.pairwise_insertCell _ _ hp' (by simp), fun c hc => ?_⟩
    rcases Memory.mem_insertCell hc with rfl | hc
    · exact ⟨i.isLt, hb⟩
    · exact hm' c hc

/-- A memory made from an image is canonical. -/
theorem Memory.ofImage_wf (f : Nat → Byte) : (Memory.ofImage f).wf = true := by
  rw [Memory.wf_iff]
  constructor
  · refine List.Pairwise.filterMap _ (R := fun a b : Nat => a < b) (fun a a' haa b hb b' hb' => ?_) List.pairwise_lt_range
    simp only [Option.ite_none_left_eq_some, Option.some.injEq] at hb hb'
    rw [← hb.2, ← hb'.2]
    exact haa
  · intro c hc
    obtain ⟨i, hi, hc⟩ := List.mem_filterMap.mp hc
    simp only [Option.ite_none_left_eq_some, Option.some.injEq] at hc
    rw [← hc.2]
    exact ⟨List.mem_range.mp hi, hc.1⟩

/-- What a reset leaves in the staging memory is canonical, whatever the free bytes are. -/
theorem Memory.unspecified_wf (draw : Nat) (m : Memory) : (m.unspecified draw).wf = true := Memory.ofImage_wf _

/-- The staging memory right after reset is in the canonical form. -/
theorem State.reset_stg_wf : State.reset.stg.wf = true := by decide

end Sys2Proof.Machine
end

