-- ==== Sys2Proof/Laws/State.lean ====
section
/-! SUPPORT. One lemma per field per named update of State, so that no proof unfolds a record update. -/

namespace Sys2Proof.Machine

variable (s : State)

/-! ### stageByte -/

@[simp] theorem State.stageByte_cal (idx : BitVec 5) (b : Byte) : (s.stageByte idx b).cal = s.cal := rfl
@[simp] theorem State.stageByte_tFine (idx : BitVec 5) (b : Byte) : (s.stageByte idx b).tFine = s.tFine := rfl
@[simp] theorem State.stageByte_out0 (idx : BitVec 5) (b : Byte) : (s.stageByte idx b).out0 = s.out0 := rfl
@[simp] theorem State.stageByte_out1 (idx : BitVec 5) (b : Byte) : (s.stageByte idx b).out1 = s.out1 := rfl
@[simp] theorem State.stageByte_status (idx : BitVec 5) (b : Byte) : (s.stageByte idx b).status = s.status := rfl
@[simp] theorem State.stageByte_stg (idx : BitVec 5) (b : Byte) : (s.stageByte idx b).stg = s.stg.write idx b := rfl
@[simp] theorem State.stageByte_wmask (idx : BitVec 5) (b : Byte) : (s.stageByte idx b).wmask = s.wmask ||| (1#32 <<< idx.toNat) := rfl
@[simp] theorem State.stageByte_host (idx : BitVec 5) (b : Byte) : (s.stageByte idx b).host = s.host := rfl
@[simp] theorem State.stageByte_draws (idx : BitVec 5) (b : Byte) : (s.stageByte idx b).draws = s.draws := rfl

/-! ### commit -/

@[simp] theorem State.commit_cal (c : Cal) : (s.commit c).cal = c := rfl
@[simp] theorem State.commit_tFine (c : Cal) : (s.commit c).tFine = s.tFine := rfl
@[simp] theorem State.commit_out0 (c : Cal) : (s.commit c).out0 = s.out0 := rfl
@[simp] theorem State.commit_out1 (c : Cal) : (s.commit c).out1 = s.out1 := rfl
@[simp] theorem State.commit_status (c : Cal) : (s.commit c).status = { s.status with calv := true, tfv := false } := rfl
@[simp] theorem State.commit_stg (c : Cal) : (s.commit c).stg = s.stg := rfl
@[simp] theorem State.commit_wmask (c : Cal) : (s.commit c).wmask = 0 := rfl
@[simp] theorem State.commit_host (c : Cal) : (s.commit c).host = s.host := rfl
@[simp] theorem State.commit_draws (c : Cal) : (s.commit c).draws = s.draws := rfl

/-! ### writeOut0 -/

@[simp] theorem State.writeOut0_cal (v : BitVec 64) : (s.writeOut0 v).cal = s.cal := rfl
@[simp] theorem State.writeOut0_tFine (v : BitVec 64) : (s.writeOut0 v).tFine = s.tFine := rfl
@[simp] theorem State.writeOut0_out0 (v : BitVec 64) : (s.writeOut0 v).out0 = v := rfl
@[simp] theorem State.writeOut0_out1 (v : BitVec 64) : (s.writeOut0 v).out1 = s.out1 := rfl
@[simp] theorem State.writeOut0_status (v : BitVec 64) : (s.writeOut0 v).status = s.status := rfl
@[simp] theorem State.writeOut0_stg (v : BitVec 64) : (s.writeOut0 v).stg = s.stg := rfl
@[simp] theorem State.writeOut0_wmask (v : BitVec 64) : (s.writeOut0 v).wmask = s.wmask := rfl
@[simp] theorem State.writeOut0_host (v : BitVec 64) : (s.writeOut0 v).host = s.host := rfl
@[simp] theorem State.writeOut0_draws (v : BitVec 64) : (s.writeOut0 v).draws = s.draws := rfl

/-! ### writeFine -/

@[simp] theorem State.writeFine_cal (v : BitVec 64) : (s.writeFine v).cal = s.cal := rfl
@[simp] theorem State.writeFine_tFine (v : BitVec 64) : (s.writeFine v).tFine = v := rfl
@[simp] theorem State.writeFine_out0 (v : BitVec 64) : (s.writeFine v).out0 = s.out0 := rfl
@[simp] theorem State.writeFine_out1 (v : BitVec 64) : (s.writeFine v).out1 = s.out1 := rfl
@[simp] theorem State.writeFine_status (v : BitVec 64) : (s.writeFine v).status = { s.status with tfv := true } := rfl
@[simp] theorem State.writeFine_stg (v : BitVec 64) : (s.writeFine v).stg = s.stg := rfl
@[simp] theorem State.writeFine_wmask (v : BitVec 64) : (s.writeFine v).wmask = s.wmask := rfl
@[simp] theorem State.writeFine_host (v : BitVec 64) : (s.writeFine v).host = s.host := rfl
@[simp] theorem State.writeFine_draws (v : BitVec 64) : (s.writeFine v).draws = s.draws := rfl

/-! ### writeTemperature -/

@[simp] theorem State.writeTemperature_cal (t tf : BitVec 64) (o : Bool) : (s.writeTemperature t tf o).cal = s.cal := rfl
@[simp] theorem State.writeTemperature_tFine (t tf : BitVec 64) (o : Bool) : (s.writeTemperature t tf o).tFine = tf := rfl
@[simp] theorem State.writeTemperature_out0 (t tf : BitVec 64) (o : Bool) : (s.writeTemperature t tf o).out0 = t := rfl
@[simp] theorem State.writeTemperature_out1 (t tf : BitVec 64) (o : Bool) : (s.writeTemperature t tf o).out1 = tf := rfl
@[simp] theorem State.writeTemperature_status (t tf : BitVec 64) (o : Bool) : (s.writeTemperature t tf o).status = { s.status with tfv := true, ovf := o } := rfl
@[simp] theorem State.writeTemperature_stg (t tf : BitVec 64) (o : Bool) : (s.writeTemperature t tf o).stg = s.stg := rfl
@[simp] theorem State.writeTemperature_wmask (t tf : BitVec 64) (o : Bool) : (s.writeTemperature t tf o).wmask = s.wmask := rfl
@[simp] theorem State.writeTemperature_host (t tf : BitVec 64) (o : Bool) : (s.writeTemperature t tf o).host = s.host := rfl
@[simp] theorem State.writeTemperature_draws (t tf : BitVec 64) (o : Bool) : (s.writeTemperature t tf o).draws = s.draws := rfl

/-! ### writePressure -/

@[simp] theorem State.writePressure_cal (p : BitVec 64) (z o : Bool) : (s.writePressure p z o).cal = s.cal := rfl
@[simp] theorem State.writePressure_tFine (p : BitVec 64) (z o : Bool) : (s.writePressure p z o).tFine = s.tFine := rfl
@[simp] theorem State.writePressure_out0 (p : BitVec 64) (z o : Bool) : (s.writePressure p z o).out0 = p := rfl
@[simp] theorem State.writePressure_out1 (p : BitVec 64) (z o : Bool) : (s.writePressure p z o).out1 = 0 := rfl
@[simp] theorem State.writePressure_status (p : BitVec 64) (z o : Bool) : (s.writePressure p z o).status = { s.status with zden := z, ovf := o } := rfl
@[simp] theorem State.writePressure_stg (p : BitVec 64) (z o : Bool) : (s.writePressure p z o).stg = s.stg := rfl
@[simp] theorem State.writePressure_wmask (p : BitVec 64) (z o : Bool) : (s.writePressure p z o).wmask = s.wmask := rfl
@[simp] theorem State.writePressure_host (p : BitVec 64) (z o : Bool) : (s.writePressure p z o).host = s.host := rfl
@[simp] theorem State.writePressure_draws (p : BitVec 64) (z o : Bool) : (s.writePressure p z o).draws = s.draws := rfl

/-! ### writeHumidity -/

@[simp] theorem State.writeHumidity_cal (h : BitVec 64) (lo hi o : Bool) : (s.writeHumidity h lo hi o).cal = s.cal := rfl
@[simp] theorem State.writeHumidity_tFine (h : BitVec 64) (lo hi o : Bool) : (s.writeHumidity h lo hi o).tFine = s.tFine := rfl
@[simp] theorem State.writeHumidity_out0 (h : BitVec 64) (lo hi o : Bool) : (s.writeHumidity h lo hi o).out0 = h := rfl
@[simp] theorem State.writeHumidity_out1 (h : BitVec 64) (lo hi o : Bool) : (s.writeHumidity h lo hi o).out1 = 0 := rfl
@[simp] theorem State.writeHumidity_status (h : BitVec 64) (lo hi o : Bool) : (s.writeHumidity h lo hi o).status = { s.status with hclo := lo, hchi := hi, ovf := o } := rfl
@[simp] theorem State.writeHumidity_stg (h : BitVec 64) (lo hi o : Bool) : (s.writeHumidity h lo hi o).stg = s.stg := rfl
@[simp] theorem State.writeHumidity_wmask (h : BitVec 64) (lo hi o : Bool) : (s.writeHumidity h lo hi o).wmask = s.wmask := rfl
@[simp] theorem State.writeHumidity_host (h : BitVec 64) (lo hi o : Bool) : (s.writeHumidity h lo hi o).host = s.host := rfl
@[simp] theorem State.writeHumidity_draws (h : BitVec 64) (lo hi o : Bool) : (s.writeHumidity h lo hi o).draws = s.draws := rfl

/-! ### raise -/

@[simp] theorem State.raise_cal (f : FaultCode) : (s.raise f).cal = s.cal := rfl
@[simp] theorem State.raise_tFine (f : FaultCode) : (s.raise f).tFine = s.tFine := rfl
@[simp] theorem State.raise_out0 (f : FaultCode) : (s.raise f).out0 = s.out0 := rfl
@[simp] theorem State.raise_out1 (f : FaultCode) : (s.raise f).out1 = s.out1 := rfl
@[simp] theorem State.raise_status (f : FaultCode) : (s.raise f).status = { s.status with fault := some f } := rfl
@[simp] theorem State.raise_stg (f : FaultCode) : (s.raise f).stg = s.stg := rfl
@[simp] theorem State.raise_wmask (f : FaultCode) : (s.raise f).wmask = s.wmask := rfl
@[simp] theorem State.raise_host (f : FaultCode) : (s.raise f).host = s.host := rfl
@[simp] theorem State.raise_draws (f : FaultCode) : (s.raise f).draws = s.draws := rfl

/-! ### clear -/

@[simp] theorem State.clear_cal : (s.clear).cal = s.cal.unspecified s.draws := rfl
@[simp] theorem State.clear_tFine : (s.clear).tFine = unspecifiedFine s.draws s.tFine := rfl
@[simp] theorem State.clear_out0 : (s.clear).out0 = 0 := rfl
@[simp] theorem State.clear_out1 : (s.clear).out1 = 0 := rfl
@[simp] theorem State.clear_status : (s.clear).status = Status.zero := rfl
@[simp] theorem State.clear_stg : (s.clear).stg = s.stg.unspecified s.draws := rfl
@[simp] theorem State.clear_wmask : (s.clear).wmask = 0 := rfl
@[simp] theorem State.clear_host : (s.clear).host = s.host := rfl
@[simp] theorem State.clear_draws : (s.clear).draws = s.draws + 1 := rfl

/-! ### withHost -/

@[simp] theorem State.withHost_cal (es : List HostEvent) : (s.withHost es).cal = s.cal := rfl
@[simp] theorem State.withHost_tFine (es : List HostEvent) : (s.withHost es).tFine = s.tFine := rfl
@[simp] theorem State.withHost_out0 (es : List HostEvent) : (s.withHost es).out0 = s.out0 := rfl
@[simp] theorem State.withHost_out1 (es : List HostEvent) : (s.withHost es).out1 = s.out1 := rfl
@[simp] theorem State.withHost_status (es : List HostEvent) : (s.withHost es).status = s.status := rfl
@[simp] theorem State.withHost_stg (es : List HostEvent) : (s.withHost es).stg = s.stg := rfl
@[simp] theorem State.withHost_wmask (es : List HostEvent) : (s.withHost es).wmask = s.wmask := rfl
@[simp] theorem State.withHost_host (es : List HostEvent) : (s.withHost es).host = es := rfl
@[simp] theorem State.withHost_draws (es : List HostEvent) : (s.withHost es).draws = s.draws := rfl

/-! ### Every update and the host's list are independent -/

theorem State.stageByte_withHost (idx : BitVec 5) (b : Byte) (es : List HostEvent) :
    (s.withHost es).stageByte idx b = (s.stageByte idx b).withHost es := rfl
theorem State.commit_withHost (c : Cal) (es : List HostEvent) :
    (s.withHost es).commit c = (s.commit c).withHost es := rfl
theorem State.writeOut0_withHost (v : BitVec 64) (es : List HostEvent) :
    (s.withHost es).writeOut0 v = (s.writeOut0 v).withHost es := rfl
theorem State.writeFine_withHost (v : BitVec 64) (es : List HostEvent) :
    (s.withHost es).writeFine v = (s.writeFine v).withHost es := rfl
theorem State.writeTemperature_withHost (t tf : BitVec 64) (o : Bool) (es : List HostEvent) :
    (s.withHost es).writeTemperature t tf o = (s.writeTemperature t tf o).withHost es := rfl
theorem State.writePressure_withHost (p : BitVec 64) (z o : Bool) (es : List HostEvent) :
    (s.withHost es).writePressure p z o = (s.writePressure p z o).withHost es := rfl
theorem State.writeHumidity_withHost (h : BitVec 64) (lo hi o : Bool) (es : List HostEvent) :
    (s.withHost es).writeHumidity h lo hi o = (s.writeHumidity h lo hi o).withHost es := rfl
theorem State.raise_withHost (f : FaultCode) (es : List HostEvent) :
    (s.withHost es).raise f = (s.raise f).withHost es := rfl
theorem State.clear_withHost (es : List HostEvent) :
    (s.withHost es).clear = (s.clear).withHost es := rfl

end Sys2Proof.Machine
end

