-- ==== Sys2Proof/Laws/Ops.lean ====
section
/-! SUPPORT. What each shared operation can do, said once: accepting a command, the guards, and that every command answers a
next state. -/

namespace Sys2Proof.Machine

/-- While SCP is faulted a command is ignored (60_exceptions.md R136). -/
theorem accept_faulted {s : State} (h : s.faulted = true) (body : State → State) : accept s body = .next s := by
  simp [accept, h]

/-- While SCP is not faulted a command runs. -/
theorem accept_running {s : State} (h : s.faulted = false) (body : State → State) : accept s body = .next (body s) := by
  simp [accept, h]

/-- Everything accepting a command can do. -/
theorem accept_cases {s t : State} {body : State → State} (h : accept s body = .next t) :
    (s.faulted = true ∧ t = s) ∨ (s.faulted = false ∧ t = body s) := by
  cases hf : s.faulted <;> simp_all [accept]

/-- Everything the CALV guard can do (R133). -/
theorem withCalibration_cases (s : State) (body : State → State) :
    (s.status.calv = true ∧ withCalibration s body = body s) ∨
      (s.status.calv = false ∧ withCalibration s body = s.raise .noCalibration) := by
  cases h : s.status.calv <;> simp [withCalibration, h]

/-- Everything the TFV guard can do (R134). -/
theorem withFineTemperature_cases (s : State) (body : State → State) :
    (s.status.tfv = true ∧ withFineTemperature s body = body s) ∨
      (s.status.tfv = false ∧ withFineTemperature s body = s.raise .noFineTemperature) := by
  cases h : s.status.tfv <;> simp [withFineTemperature, h]

/-- Raising a fault makes SCP faulted (R131). -/
@[simp] theorem State.raise_faulted (s : State) (f : FaultCode) : (s.raise f).faulted = true := rfl

/-- A reset leaves SCP unfaulted (R140). -/
@[simp] theorem State.clear_faulted (s : State) : s.clear.faulted = false := rfl

@[simp] theorem State.withHost_faulted (s : State) (es : List HostEvent) : (s.withHost es).faulted = s.faulted := rfl

@[simp] theorem State.withHost_stgf (s : State) (es : List HostEvent) : (s.withHost es).stgf = s.stgf := rfl

/-- Putting the host's events back is no change. -/
@[simp] theorem State.withHost_self (s : State) : s.withHost s.host = s := rfl

@[simp] theorem State.withHost_withHost (s : State) (es fs : List HostEvent) : (s.withHost es).withHost fs = s.withHost fs := rfl

/-- STGF reads as WMASK = 0xFFFFFFFF (R26). -/
theorem State.stgf_iff (s : State) : s.stgf = true ↔ s.wmask = 0xFFFFFFFF := by simp [State.stgf]

/-- What a temperature command does once its guard has passed (R91). -/
theorem temperature_calibrated {s : State} (h : s.status.calv = true) (adc : BitVec 20) :
    temperature adc s =
      s.writeTemperature (sext 64 (compT s.cal (code adc)).t) (sext 64 (compT s.cal (code adc)).tf)
        (compT s.cal (code adc)).ovf := by
  simp [temperature, withCalibration, h]

/-- Everything a pressure command can do (R100). -/
theorem pressure_cases (adc : BitVec 20) (s : State) :
    (s.status.calv = false ∧ pressure adc s = s.raise .noCalibration) ∨
    (s.status.calv = true ∧ s.status.tfv = false ∧ pressure adc s = s.raise .noFineTemperature) ∨
    (s.status.calv = true ∧ s.status.tfv = true ∧
      ((∃ o, compP s.cal (code adc) (fine64 s.tFine) = .zeroDenominator o ∧ pressure adc s = s.writePressure 0 true o) ∨
       (compP s.cal (code adc) (fine64 s.tFine) = .divOverflow ∧ pressure adc s = s.raise .divOverflow) ∨
       (∃ p o, compP s.cal (code adc) (fine64 s.tFine) = .value p o ∧ pressure adc s = s.writePressure (sext 64 p) false o))) := by
  cases hc : s.status.calv with
  | false => simp [pressure, withCalibration, hc]
  | true =>
    cases ht : s.status.tfv with
    | false => simp [pressure, withCalibration, withFineTemperature, hc, ht]
    | true =>
      cases hp : compP s.cal (code adc) (fine64 s.tFine) with
      | zeroDenominator o => simp [pressure, withCalibration, withFineTemperature, hc, ht, hp]
      | divOverflow => simp [pressure, withCalibration, withFineTemperature, hc, ht, hp]
      | value p o =>
        refine .inr (.inr ⟨rfl, rfl, .inr (.inr ⟨p, o, rfl, ?_⟩)⟩)
        simp [pressure, withCalibration, withFineTemperature, hc, ht, hp]

/-- What a humidity command does once its guards have passed (R106). -/
theorem humidity_ready {s : State} (hc : s.status.calv = true) (ht : s.status.tfv = true) (adc : BitVec 16) :
    humidity adc s =
      s.writeHumidity (sext 64 (compH s.cal (code adc) (fine32 s.tFine)).h) (compH s.cal (code adc) (fine32 s.tFine)).hclo
        (compH s.cal (code adc) (fine32 s.tFine)).hchi (compH s.cal (code adc) (fine32 s.tFine)).ovf := by
  simp [humidity, withCalibration, withFineTemperature, hc, ht]

end Sys2Proof.Machine
end

