-- ==== Sys2Proof/Laws/Step.lean ====
section
/-! SUPPORT. What a step does, by the host's next event. -/

namespace Sys2Proof.Machine

theorem step_idle {s : State} (h : s.host = []) : step s = .next s := by simp [step, nextEvent, h]

theorem step_powerOn {s : State} {rest : List HostEvent} (h : s.host = .powerOn :: rest) :
    step s = .next (s.withHost rest).clear := by simp [step, nextEvent, h]

theorem step_command {s : State} {w : Word} {rest : List HostEvent} (h : s.host = .command w :: rest) :
    step s = issueWord w (s.withHost rest) := by simp [step, nextEvent, h]

/-- A word that decodes runs its command. -/
theorem issueWord_ok {w : Word} {i : Instr} (h : decode w = .ok i) (s : State) : issueWord w s = exec i s := by
  simp [issueWord, h]

/-- A word that does not decode is IllegalCommand, ignored while faulted (60_exceptions.md R132, R136). -/
theorem issueWord_error {w : Word} {r : IllegalReason} (h : decode w = .error r) (s : State) :
    issueWord w s = accept s (State.raise .illegalCommand) := by
  simp [issueWord, h]

theorem run_zero (s : State) : Sys2Proof.core.run 0 s = .next s := rfl

/-- A run of n + 1 steps is one step and a run of n from where it leads. -/
theorem run_succ {s t : State} (h : step s = .next t) (n : Nat) : Sys2Proof.core.run (n + 1) s = Sys2Proof.core.run n t := by
  have : Sys2Proof.core.step s = .next t := h
  simp only [Host.Core.run, this]

end Sys2Proof.Machine
end

