-- ==== Sys2Proof/Laws/Exec.lean ====
section
/-! SUPPORT. `exec` command by command over the shared operations, so that no proof unfolds it, and what every command leaves
alone. -/

namespace Sys2Proof.Machine

variable (s : State)

theorem exec_nop (operand : BitVec 28) : exec (.nop operand) s = accept s fun s => s := rfl

theorem exec_calwr (idx : BitVec 5) (byte : Byte) : exec (.calwr idx byte) s = accept s fun s => s.stageByte idx byte := rfl

theorem exec_calcommit :
    exec .calcommit s = accept s fun s =>
      if s.stgf then s.commit (unpack Config.h45SignExtend s.stg.read) else s.raise .stagingIncomplete := rfl

theorem exec_calrd (k : BitVec 5) :
    exec (.calrd k) s = accept s fun s =>
      match CoeffName.ofIndex k.toNat with
      | none => s.raise .illegalCommand
      | some name => withCalibration s fun s => s.writeOut0 (s.cal.extended name) := rfl

theorem exec_compt (adc : BitVec 20) : exec (.compt adc) s = accept s (temperature adc) := rfl
theorem exec_compp (adc : BitVec 20) : exec (.compp adc) s = accept s (pressure adc) := rfl
theorem exec_comph (adc : BitVec 16) : exec (.comph adc) s = accept s (humidity adc) := rfl

theorem exec_comptr (msb lsb xlsb : Byte) :
    exec (.comptr msb lsb xlsb) s = accept s (temperature (adc20 msb lsb xlsb)) := rfl

theorem exec_comppr (msb lsb xlsb : Byte) :
    exec (.comppr msb lsb xlsb) s = accept s (pressure (adc20 msb lsb xlsb)) := rfl

theorem exec_comphr (msb lsb : Byte) : exec (.comphr msb lsb) s = accept s (humidity (adc16 msb lsb)) := rfl

theorem exec_tfwr (imm : BitVec 28) : exec (.tfwr imm) s = accept s fun s => s.writeFine (fineImmediate imm) := rfl

theorem exec_reset : exec .reset s = .next s.clear := rfl

/-- While SCP is faulted every command but RESET is ignored (60_exceptions.md R136). -/
theorem exec_faulted {s : State} (h : s.faulted = true) {i : Instr} (hi : i ≠ .reset) : exec i s = .next s := by
  cases i with
  | reset => exact absurd rfl hi
  | _ =>
    simp only [exec_nop, exec_calwr, exec_calcommit, exec_calrd, exec_compt, exec_compp, exec_comph, exec_comptr, exec_comppr,
      exec_comphr, exec_tfwr]
    exact accept_faulted h _

/-- Everything a command can do, at once: what a relation `P` between the state before and after must survive for `exec` to keep it.
The values written are variables that carry what is known of them, so that no proof evaluates a stage. -/
theorem exec_induction {P : State → State → Prop} (same : ∀ s, P s s)
    (fault : ∀ s f, s.faulted = false → P s (s.raise f))
    (stage : ∀ s idx b, s.faulted = false → P s (s.stageByte idx b))
    (commit : ∀ s c, s.faulted = false → s.stgf = true → c = unpack Config.h45SignExtend s.stg.read → P s (s.commit c))
    (read : ∀ s v, s.faulted = false → s.status.calv = true → P s (s.writeOut0 v))
    (temp : ∀ s t tf o, s.faulted = false → s.status.calv = true → fitsN 32 t = true → fitsN 32 tf = true →
      P s (s.writeTemperature (sext 64 t) (sext 64 tf) o))
    (press : ∀ s p z o, s.faulted = false → s.status.calv = true → s.status.tfv = true → P s (s.writePressure p z o))
    (hum : ∀ s h lo hi o, s.faulted = false → s.status.calv = true → s.status.tfv = true → ¬(lo = true ∧ hi = true) →
      0 ≤ h → h ≤ 102400 → P s (s.writeHumidity (sext 64 h) lo hi o))
    (fine : ∀ s (x : BitVec 32), s.faulted = false → P s (s.writeFine (x.signExtend 64)))
    (clear : ∀ s, P s s.clear) (i : Instr) (t : State) (h : exec i s = .next t) : P s t := by
  have acc : ∀ body : State → State, (s.faulted = false → P s (body s)) → accept s body = .next t → P s t := by
    intro body hb ha
    rcases accept_cases ha with ⟨_, rfl⟩ | ⟨hf, rfl⟩
    · exact same _
    · exact hb hf
  have htemp : ∀ adc, s.faulted = false → P s (temperature adc s) := by
    intro adc hf
    cases hc : s.status.calv with
    | false => simpa [temperature, withCalibration, hc] using fault s _ hf
    | true => rw [temperature_calibrated hc]; exact temp s _ _ _ hf hc (compT_t_fits _ _) (compT_tf_fits _ _)
  have hpress : ∀ adc, s.faulted = false → P s (pressure adc s) := by
    intro adc hf
    rcases pressure_cases adc s with ⟨_, he⟩ | ⟨_, _, he⟩ | ⟨hc, ht, ⟨o, _, he⟩ | ⟨_, he⟩ | ⟨p, o, _, he⟩⟩ <;> rw [he]
    · exact fault s _ hf
    · exact fault s _ hf
    · exact press s _ _ _ hf hc ht
    · exact fault s _ hf
    · exact press s _ _ _ hf hc ht
  have hhum : ∀ adc, s.faulted = false → P s (humidity adc s) := by
    intro adc hf
    cases hc : s.status.calv with
    | false => simpa [humidity, withCalibration, hc] using fault s _ hf
    | true =>
      cases ht : s.status.tfv with
      | false => simpa [humidity, withCalibration, withFineTemperature, hc, ht] using fault s _ hf
      | true =>
        rw [humidity_ready hc ht]
        exact hum s _ _ _ _ hf hc ht (compH_not_both _ _ _) (compH_h_bounds _ _ _).1 (compH_h_bounds _ _ _).2
  cases i with
  | nop operand => rw [exec_nop] at h; exact acc _ (fun _ => same s) h
  | calwr idx b => rw [exec_calwr] at h; exact acc _ (stage s idx b) h
  | calcommit =>
    rw [exec_calcommit] at h
    refine acc _ (fun hf => ?_) h
    split
    · rename_i hg; exact commit s _ hf hg rfl
    · exact fault s _ hf
  | calrd k =>
    rw [exec_calrd] at h
    refine acc _ (fun hf => ?_) h
    split
    · exact fault s _ hf
    · rename_i name _
      rcases withCalibration_cases s (fun s => s.writeOut0 (s.cal.extended name)) with ⟨hc, he⟩ | ⟨_, he⟩ <;> rw [he]
      · exact read s _ hf hc
      · exact fault s _ hf
  | compt adc => rw [exec_compt] at h; exact acc _ (htemp adc) h
  | compp adc => rw [exec_compp] at h; exact acc _ (hpress adc) h
  | comph adc => rw [exec_comph] at h; exact acc _ (hhum adc) h
  | comptr m l x => rw [exec_comptr] at h; exact acc _ (htemp _) h
  | comppr m l x => rw [exec_comppr] at h; exact acc _ (hpress _) h
  | comphr m l => rw [exec_comphr] at h; exact acc _ (hhum _) h
  | tfwr imm => rw [exec_tfwr] at h; exact acc _ (fun hf => fine s (imm.signExtend 32) hf) h
  | reset => rw [exec_reset] at h; injection h with h; exact h ▸ clear s

/-- What the host will do next has no part in what a command accepts. -/
theorem accept_withHost (es : List HostEvent) {body : State → State} (hb : ∀ s, body (s.withHost es) = (body s).withHost es) :
    accept (s.withHost es) body = .next ((if s.faulted then s else body s).withHost es) := by
  cases h : s.faulted <;> simp [accept, h, hb]

theorem withCalibration_withHost (es : List HostEvent) {body : State → State}
    (hb : ∀ s, body (s.withHost es) = (body s).withHost es) :
    withCalibration (s.withHost es) body = (withCalibration s body).withHost es := by
  cases h : s.status.calv
  · simp only [withCalibration, State.withHost_status, h]; rfl
  · simp [withCalibration, h, hb]

theorem withFineTemperature_withHost (es : List HostEvent) {body : State → State}
    (hb : ∀ s, body (s.withHost es) = (body s).withHost es) :
    withFineTemperature (s.withHost es) body = (withFineTemperature s body).withHost es := by
  cases h : s.status.tfv
  · simp only [withFineTemperature, State.withHost_status, h]; rfl
  · simp [withFineTemperature, h, hb]

theorem temperature_withHost (es : List HostEvent) (adc : BitVec 20) :
    temperature adc (s.withHost es) = (temperature adc s).withHost es := by
  cases hc : s.status.calv with
  | false => simp [temperature, withCalibration, hc, State.raise_withHost]
  | true =>
    rw [temperature_calibrated hc, temperature_calibrated (s := s.withHost es) hc, State.withHost_cal,
      State.writeTemperature_withHost]

theorem pressure_withHost (es : List HostEvent) (adc : BitVec 20) :
    pressure adc (s.withHost es) = (pressure adc s).withHost es := by
  simp only [pressure]
  refine withCalibration_withHost s es fun s => withFineTemperature_withHost s es fun s => ?_
  rw [State.withHost_cal, State.withHost_tFine]
  split
  · exact State.writePressure_withHost ..
  · exact State.raise_withHost ..
  · exact State.writePressure_withHost ..

theorem humidity_withHost (es : List HostEvent) (adc : BitVec 16) :
    humidity adc (s.withHost es) = (humidity adc s).withHost es := by
  cases hc : s.status.calv with
  | false => simp [humidity, withCalibration, hc, State.raise_withHost]
  | true =>
    cases ht : s.status.tfv with
    | false => simp [humidity, withCalibration, withFineTemperature, hc, ht, State.raise_withHost]
    | true =>
      rw [humidity_ready hc ht, humidity_ready (s := s.withHost es) hc ht, State.withHost_cal, State.withHost_tFine,
        State.writeHumidity_withHost]

/-- Every command answers a next state, the same whatever the host will do next. -/
theorem exec_answers (i : Instr) : ∃ t, exec i s = .next t ∧ ∀ es, exec i (s.withHost es) = .next (t.withHost es) := by
  have acc : ∀ body : State → State, (∀ s es, body (s.withHost es) = (body s).withHost es) →
      ∃ t, accept s body = .next t ∧ ∀ es, accept (s.withHost es) body = .next (t.withHost es) :=
    fun body hb => ⟨_, rfl, fun es => accept_withHost s es fun s => hb s es⟩
  cases i with
  | nop operand => exact acc (fun s => s) fun _ _ => rfl
  | calwr idx b => exact acc (fun s => s.stageByte idx b) fun _ _ => rfl
  | calcommit =>
    rw [exec_calcommit]
    simp only [exec_calcommit]
    refine acc _ fun s es => ?_
    rw [State.withHost_stgf, State.withHost_stg]
    split
    · exact State.commit_withHost ..
    · exact State.raise_withHost ..
  | calrd k =>
    simp only [exec_calrd]
    refine acc _ fun s es => ?_
    split
    · rfl
    · exact withCalibration_withHost s es fun _ => rfl
  | compt adc => exact acc (temperature adc) fun s es => temperature_withHost s es adc
  | compp adc => exact acc (pressure adc) fun s es => pressure_withHost s es adc
  | comph adc => exact acc (humidity adc) fun s es => humidity_withHost s es adc
  | comptr m l x => exact acc (temperature (adc20 m l x)) fun s es => temperature_withHost s es _
  | comppr m l x => exact acc (pressure (adc20 m l x)) fun s es => pressure_withHost s es _
  | comphr m l => exact acc (humidity (adc16 m l)) fun s es => humidity_withHost s es _
  | tfwr imm => exact acc (fun s => s.writeFine (fineImmediate imm)) fun _ _ => rfl
  | reset => exact ⟨_, rfl, fun _ => rfl⟩

/-- No command touches what the host will do next. -/
theorem exec_host (i : Instr) (t : State) (h : exec i s = .next t) : t.host = s.host := by
  obtain ⟨t', ht, hes⟩ := exec_answers s i
  have hs := hes s.host
  rw [State.withHost_self, h] at hs
  injection hs with hs
  rw [hs, State.withHost_host]

/-- A property every command, a fault and a power-on keep, and that says nothing of the host's list, is kept by every step. -/
theorem step_induction {P : State → State → Prop} (idle : ∀ s, P s s)
    (run : ∀ s i rest t, exec i (s.withHost rest) = .next t → P s t)
    (illegal : ∀ s rest, s.faulted = false → P s ((s.withHost rest).raise .illegalCommand))
    (ignored : ∀ s rest, s.faulted = true → P s (s.withHost rest))
    (power : ∀ s rest, P s (s.withHost rest).clear) {t : State} (h : step s = .next t) : P s t := by
  cases hh : s.host with
  | nil => rw [step_idle hh] at h; injection h with h; exact h ▸ idle s
  | cons e rest =>
    cases e with
    | powerOn => rw [step_powerOn hh] at h; injection h with h; exact h ▸ power s rest
    | command w =>
      rw [step_command hh] at h
      cases hd : decode w with
      | ok i => rw [issueWord_ok hd] at h; exact run s i rest t h
      | error r =>
        rw [issueWord_error hd] at h
        rcases accept_cases h with ⟨hf, rfl⟩ | ⟨hf, rfl⟩
        · exact ignored s rest hf
        · exact illegal s rest hf

end Sys2Proof.Machine
end

