-- ==== Sys2Proof/Laws/PerInstr.lean ====
section
/-! SUPPORT. Per instruction: the OP field its word carries is the one the opcode map gives it (30_encoding.md R61, R64). -/

namespace Sys2Proof.Laws.OpcodeField

open Sys2Proof

/-- The OP value of each command in the opcode map (R64). -/
def opcode : Instr → BitVec 4
  | .nop _ => 0x0
  | .calwr _ _ => 0x1
  | .calcommit => 0x2
  | .calrd _ => 0x3
  | .compt _ => 0x4
  | .compp _ => 0x5
  | .comph _ => 0x6
  | .comptr _ _ _ => 0x7
  | .comppr _ _ _ => 0x8
  | .comphr _ _ => 0x9
  | .tfwr _ => 0xA
  | .reset => 0xF

/-- `CW[31:28]` of the command's word is its OP. -/
def Statement (i : Instr) : Prop := (encode i).extractLsb' 28 4 = opcode i

/-- A field that lies in the high part of a concatenation is that field of the high part. -/
theorem extract_append_high {n m : Nat} (a : BitVec n) (b : BitVec m) (k len : Nat) :
    (a ++ b).extractLsb' (m + k) len = a.extractLsb' k len := by
  apply BitVec.eq_of_getLsbD_eq
  intro i hi
  simp only [BitVec.getLsbD_extractLsb', BitVec.getLsbD_append]
  simp [show ¬ m + k + i < m by omega, show m + k + i - m = k + i by omega]

theorem nop (operand : BitVec 28) : Statement (.nop operand) := extract_append_high 0x0#4 operand 0 4
theorem calwr (idx : BitVec 5) (byte : Byte) : Statement (.calwr idx byte) :=
  (extract_append_high (0x1#4 ++ 0#15 ++ idx) byte 20 4).trans (extract_append_high (0x1#4 ++ 0#15) idx 15 4)
theorem calcommit : Statement .calcommit := rfl
theorem calrd (k : BitVec 5) : Statement (.calrd k) := extract_append_high (0x3#4 ++ 0#23) k 23 4
theorem compt (adc : BitVec 20) : Statement (.compt adc) := extract_append_high (0x4#4 ++ 0#8) adc 8 4
theorem compp (adc : BitVec 20) : Statement (.compp adc) := extract_append_high (0x5#4 ++ 0#8) adc 8 4
theorem comph (adc : BitVec 16) : Statement (.comph adc) := extract_append_high (0x6#4 ++ 0#12) adc 12 4
theorem comptr (msb lsb xlsb : Byte) : Statement (.comptr msb lsb xlsb) :=
  (extract_append_high (0x7#4 ++ 0#4 ++ msb ++ lsb) xlsb 20 4).trans
    ((extract_append_high (0x7#4 ++ 0#4 ++ msb) lsb 12 4).trans (extract_append_high (0x7#4 ++ 0#4) msb 4 4))
theorem comppr (msb lsb xlsb : Byte) : Statement (.comppr msb lsb xlsb) :=
  (extract_append_high (0x8#4 ++ 0#4 ++ msb ++ lsb) xlsb 20 4).trans
    ((extract_append_high (0x8#4 ++ 0#4 ++ msb) lsb 12 4).trans (extract_append_high (0x8#4 ++ 0#4) msb 4 4))
theorem comphr (msb lsb : Byte) : Statement (.comphr msb lsb) :=
  (extract_append_high (0x9#4 ++ 0#12 ++ msb) lsb 20 4).trans (extract_append_high (0x9#4 ++ 0#12) msb 12 4)
theorem tfwr (imm : BitVec 28) : Statement (.tfwr imm) := extract_append_high 0xA#4 imm 0 4
theorem reset : Statement .reset := rfl

end Sys2Proof.Laws.OpcodeField
end

