-- ==== Sys2Proof/Tests/Slice0.lean ====
section
/-! SUPPORT. The model's own tests. Expected values are those of spec/95_test_vectors.md and of the rules' examples (named in each
comment), not the model's answers. After them, one witness for each obligation that has hypotheses. -/

namespace Sys2Proof.Tests

open Sys2Proof Sys2Proof.Machine Sys2Proof.Certificates

/-! ### Helpers -/

/-- The state a command answers. -/
def after : Result → Option State
  | .next t => some t
  | .fault _ => none
  | .refused _ => none

/-- A staging image from its bytes, STG[0] first. -/
def imageOf (bytes : List Byte) (i : BitVec 5) : Byte := bytes.getD i.toNat 0

/-- V-CAL-1, the temperature and pressure block. -/
def block1 : List Byte :=
  [0x70, 0x6B, 0x43, 0x67, 0x18, 0xFC, 0x7D, 0x8E, 0x43, 0xD6, 0xD0, 0x0B] ++
  [0x27, 0x0B, 0x8C, 0x00, 0xF9, 0xFF, 0x8C, 0x3C, 0xF8, 0xC6, 0x70, 0x17]

/-- The image of V-CAL-1. -/
def image1 : List Byte := block1 ++ [0x4B, 0x6A, 0x01, 0x00, 0x13, 0x29, 0x03, 0x1E]

/-- The image of V-CAL-2. -/
def image2 : List Byte := List.replicate 24 0xFF ++ [0xFF, 0x00, 0x80, 0xFF, 0xF3, 0xA5, 0x80, 0xFF]

/-- The coefficients of V-CAL-1. -/
def cal1 : Cal where
  t1 := 27504
  t2 := 26435
  t3 := -1000
  p1 := 36477
  p2 := -10685
  p3 := 3024
  p4 := 2855
  p5 := 140
  p6 := -7
  p7 := 15500
  p8 := -14600
  p9 := 6000
  h1 := 75
  h2 := 362
  h3 := 0
  h4 := 313
  h5 := 50
  h6 := 30

/-- The coefficients of V-P-2: P1 = 0. -/
def calZero : Cal := { cal1 with p1 := 0 }

/-- The coefficients of V-P-7. -/
def calDiv : Cal := { cal1 with p1 := 1, p2 := 0, p3 := -2, p4 := -512, p5 := -127, p6 := -32256 }

/-- The coefficients of V-T-4. -/
def calWrap : Cal := { cal1 with t1 := 0, t2 := 32767, t3 := 0 }

/-- SCP with a committed calibration and a fine temperature. -/
def ready (c : Cal) (tf : Int) : State :=
  { State.reset with cal := c, tFine := BitVec.ofInt 64 tf, status := { Status.zero with calv := true, tfv := true } }

/-- SCP with a committed calibration and no fine temperature. -/
def committed : State := { State.reset with cal := cal1, status := { Status.zero with calv := true } }

/-- SCP with every staging byte written. -/
def staged : State := { State.reset with stg := Memory.ofImage (fun i => image1.getD i 0), wmask := 0xFFFFFFFF }

/-- SCP after a NoCalibration fault. -/
def faulted : State := State.reset.raise .noCalibration

/-! ### Well-formedness: the one check, and a term it refuses -/

theorem test_wellFormed_calrd_17 : (Instr.calrd 17).wellFormed = true := by decide
theorem test_illFormed_calrd_18 : (Instr.calrd 18).wellFormed = false := by decide
theorem test_illFormed_calrd_31 : (Instr.calrd 31).wellFormed = false := by decide

/-! ### Decoding: words written out bit by bit from the formats of 30_encoding.md R61 -/

/-- NOP, format H: `0000`, then any bits. -/
theorem test_decode_nop : decode 0b00001010101111001101111011110001 = .ok (.nop 0xABCDEF1) := by decide
/-- CALWR 29, 0x29, format W: `0001`, 15 zeros, IDX `11101`, BYTE `00101001`. -/
theorem test_decode_calwr : decode 0b00010000000000000001110100101001 = .ok (.calwr 29 0x29) := by decide
/-- CALCOMMIT, format Z. -/
theorem test_decode_calcommit : decode 0b00100000000000000000000000000000 = .ok .calcommit := by decide
/-- CALRD 17, format K: `0011`, 23 zeros, K `10001`. -/
theorem test_decode_calrd : decode 0b00110000000000000000000000010001 = .ok (.calrd 17) := by decide
/-- COMPT 519888, format A20: `0100`, 8 zeros, ADC `01111110111011010000`. -/
theorem test_decode_compt : decode 0b01000000000001111110111011010000 = .ok (.compt 519888) := by decide
/-- COMPP 415148, format A20: `0101`, 8 zeros, ADC `01100101010110101100`. -/
theorem test_decode_compp : decode 0b01010000000001100101010110101100 = .ok (.compp 415148) := by decide
/-- COMPH 30000, format A16: `0110`, 12 zeros, ADC `0111010100110000`. -/
theorem test_decode_comph : decode 0b01100000000000000111010100110000 = .ok (.comph 30000) := by decide
/-- COMPTR 0x7E, 0xED, 0x0F, format B3: `0111`, 4 zeros, MSB, LSB, XLSB. -/
theorem test_decode_comptr : decode 0b01110000011111101110110100001111 = .ok (.comptr 0x7E 0xED 0x0F) := by decide
/-- COMPPR 0x65, 0x5A, 0xC0, format B3. -/
theorem test_decode_comppr : decode 0b10000000011001010101101011000000 = .ok (.comppr 0x65 0x5A 0xC0) := by decide
/-- COMPHR 0x75, 0x30, format B2: `1001`, 12 zeros, MSB, LSB. -/
theorem test_decode_comphr : decode 0b10010000000000000111010100110000 = .ok (.comphr 0x75 0x30) := by decide
/-- TFWR -134217728, format I28: `1010`, then IMM. -/
theorem test_decode_tfwr : decode 0b10101000000000000000000000000000 = .ok (.tfwr (-134217728)) := by decide
/-- RESET, format Z. -/
theorem test_decode_reset : decode 0b11110000000000000000000000000000 = .ok .reset := by decide

/-- V-F-1: reserved opcodes. -/
theorem test_illegal_opcodes :
    ([0xB0000000, 0xC0000000, 0xD0000000, 0xE0000000] : List Word).all
      (fun w => decode w == .error .reservedOpcode) = true := by decide
/-- V-F-1: reserved-zero bits, the lowest one of each format. -/
theorem test_illegal_reserved_zero :
    ([0x10002000, 0x20000001, 0x30000020, 0x40100000, 0x50100000, 0x60010000, 0x71000000, 0x81000000, 0x90010000, 0xF0000001] :
      List Word).all (fun w => decode w == .error .reservedZero) = true := by decide
/-- V-F-1: CALRD 18; a non-zero CW[27:5] comes first (R65). -/
theorem test_illegal_index :
    decode 0x30000012 = .error .coefficientIndex ∧ decode 0x30000032 = .error .reservedZero := by decide
/-- The encoder on the words of V-CAL-1 and V-C-5. -/
theorem test_encode : encode (.calwr 31 0x1E) = 0x10001F1E ∧ encode (.tfwr (-134089984)) = 0xA801F300 := by decide

theorem test_decodeTableWord : decodeTableWord 32 0x9000FFFF = some (.comphr 0xFF 0xFF) := by decide
theorem test_decodeTableWord_refuses :
    decodeTableWord 32 0xB0000000 = none ∧ decodeTableWord 64 0x20000000 = none := by decide
/-- The first instruction after reset is the one placed. -/
theorem test_withFetchWord :
    (after (step (State.reset.withFetchWord 32 0xA001F5A6))).map (fun t => (t.tFine, t.statusWord)) = some (128422, 2) := by decide

/-! ### Arithmetic primitives (95_test_vectors.md section 9) -/

theorem test_tdiv :
    (tdivN 64 (exact (-7)) (exact 2)).map Checked.val = some (-3) ∧ (tdivN 64 (exact 7) (exact (-2))).map Checked.val = some (-3) ∧
    (tdivN 64 (exact (-7)) (exact (-2))).map Checked.val = some 3 ∧ tdivN 64 (exact (-(2 ^ 63))) (exact (-1)) = none := by
  decide +kernel
theorem test_asr :
    asr (exact (-7)) 1 = ⟨-4, false⟩ ∧ asr (exact 7) 1 = ⟨3, false⟩ ∧ asr (exact (-1)) 12 = ⟨-1, false⟩ := by decide +kernel
theorem test_wrap :
    addN 32 (exact (2 ^ 31 - 1)) (exact 1) = ⟨-(2 ^ 31), true⟩ ∧ mulN 32 (exact (-(2 ^ 31))) (exact (-1)) = ⟨-(2 ^ 31), true⟩ ∧
    mulN 32 (exact 65535) (exact 65535) = ⟨-131071, true⟩ ∧ mulN 64 (exact (-(2 ^ 63))) (exact 3125) = ⟨-(2 ^ 63), true⟩ := by
  decide +kernel
theorem test_shl :
    shlN 32 (exact 2048) 20 = ⟨-(2 ^ 31), true⟩ ∧ shlN 32 (exact 2047) 20 = ⟨2146435072, false⟩ := by decide +kernel

/-- V-RAW-1 to V-RAW-7. -/
theorem test_raw_codes :
    adc20 0x7E 0xED 0x00 = 519888 ∧ adc20 0x7E 0xED 0x0F = 519888 ∧ adc20 0xFF 0xFF 0xFF = 1048575 ∧ adc20 0 0 0x10 = 1 ∧
    adc20 0x80 0 0 = 524288 ∧ adc16 0x75 0x30 = 30000 ∧ adc16 0xFF 0xFF = 65535 := by decide

/-! ### Staging memory -/

theorem test_memory_write_keeps_order :
    Memory.write (Memory.write [] 5 0x55) 2 0x22 = [(2, 0x22), (5, 0x55)] := by decide
theorem test_memory_write_unlisted : Memory.write (Memory.write [] 5 0x55) 5 0 = [] := by decide

/-! ### Calibration unpacker -/

/-- V-CAL-1, the same for both values of the parameter. -/
theorem test_unpack_reference : ∀ sx, unpack sx (imageOf image1) = cal1 := by decide
/-- V-CAL-2: every sign boundary. -/
theorem test_unpack_signs :
    (unpack true (imageOf image2)).h4.toInt = -203 ∧ (unpack false (imageOf image2)).h4.toInt = 3893 ∧
    (unpack true (imageOf image2)).h5.toInt = -2038 ∧ (unpack false (imageOf image2)).h5.toInt = 2058 ∧
    (unpack true (imageOf image2)).h2.toInt = -32768 := by decide
/-- V-CAL-3: distinct bytes. -/
theorem test_unpack_distinct :
    let c := unpack true (fun i => i.zeroExtend 8)
    (c.t1, c.p1, c.p9, c.h1, c.h2, c.h3, c.h4, c.h5, c.h6) = (256, 1798, 5910, 24, 6681, 27, 461, 481, 31) := by decide

/-- R80 example. -/
theorem test_calwr :
    (after (exec (.calwr 29 0x29) State.reset)).map (fun t => (t.stg, t.wmask)) = some ([(29, 0x29)], 0x20000000) := by decide
/-- STGF when the last byte is written (V-CAL-1). -/
theorem test_calwr_stgf :
    (after (exec (.calwr 31 0x1E) { State.reset with wmask := 0x7FFFFFFF })).map State.statusWord = some 0x40 := by decide
/-- V-CAL-1: STATUS and WMASK after the commit. -/
theorem test_calcommit : (after (exec .calcommit staged)).map (fun t => (t.statusWord, t.wmask)) = some (1, 0) := by
  decide +kernel
/-- V-CAL-6. -/
theorem test_calcommit_again :
    (after (exec .calcommit { committed with wmask := 0x40 })).map State.statusWord = some 0x401 := by decide
/-- R86 example. -/
theorem test_calrd_signed : (after (exec (.calrd 2) committed)).map State.out0 = some 0xFFFFFFFFFFFFFC18 := by decide
/-- V-CAL-4: P1 is zero-extended. -/
theorem test_calrd_unsigned : (after (exec (.calrd 3) committed)).map State.out0 = some 36477 := by decide

/-! ### Compensation -/

/-- V-T-1, with STATUS. -/
theorem test_compt :
    (after (exec (.compt 519888) committed)).map (fun t => (t.out0, t.out1, t.tFine, t.statusWord)) =
      some (2508, 128422, 128422, 3) := by decide +kernel
/-- V-T-4: wrap-around. -/
theorem test_compt_wraps :
    (after (exec (.compt 1048575) (ready calWrap 0))).map (fun t => (t.out0, t.out1, t.status.ovf)) = some (-2, -80, true) := by
  decide +kernel
/-- V-T-6, and V-T-5 (rounding toward minus infinity) through COMPTR of 400000 = 0x61A80. -/
theorem test_comptr :
    (after (exec (.comptr 0x7E 0xED 0x0F) committed)).map State.out0 = some 2508 ∧
    (after (exec (.comptr 0x61 0xA8 0x00) committed)).map State.out0 = some (-1264) := by decide +kernel
/-- V-P-1. -/
theorem test_compp :
    (after (exec (.compp 415148) (ready cal1 128422))).map (fun t => (t.out0, t.out1, t.statusWord)) = some (25767233, 0, 3) := by
  decide +kernel
/-- V-P-2 (sentinel), V-P-4 (negative), V-P-6 (wraps). -/
theorem test_compp_corners :
    (after (exec (.compp 415148) (ready calZero 128422))).map (fun t => (t.out0, t.statusWord)) = some (0, 7) ∧
    (after (exec (.compp 1048575) (ready cal1 128422))).map State.out0 = some (-1697504) ∧
    (after (exec (.compp 415148) (ready cal1 (-134217728)))).map (fun t => (t.out0, t.statusWord)) = some (40364859, 0x23) := by
  decide +kernel
/-- V-P-1 through COMPPR, and V-P-7: DivOverflow. -/
theorem test_comppr :
    (after (exec (.comppr 0x65 0x5A 0xC0) (ready cal1 128422))).map State.out0 = some 25767233 ∧
    (after (exec (.comppr 0xFF 0xFF 0xF0) (ready calDiv (-134089984)))).map (fun t => (t.out0, t.statusWord)) =
      some (0, 0x503) := by decide +kernel
/-- V-H-1, V-H-7. -/
theorem test_comph :
    (after (exec (.comph 30000) (ready cal1 128422))).map (fun t => (t.out0, t.out1, t.statusWord)) = some (56317, 0, 3) ∧
    (after (exec (.comph 30000) (ready cal1 0))).map State.out0 = some 55289 := by decide +kernel
/-- V-H-2, V-H-3 (the clamp), V-H-5 (an unsigned H4 wraps). -/
theorem test_comph_clamps :
    (after (exec (.comph 0) (ready cal1 128422))).map (fun t => (t.out0, t.statusWord)) = some (0, 0x0B) ∧
    (after (exec (.comph 65535) (ready cal1 128422))).map (fun t => (t.out0, t.statusWord)) = some (102400, 0x13) ∧
    (after (exec (.comph 30000) (ready { cal1 with h4 := 4095 } 128422))).map (fun t => (t.out0, t.statusWord)) =
      some (102400, 0x33) := by decide +kernel
/-- R110 example. -/
theorem test_comphr : (after (exec (.comphr 0x75 0x30) (ready cal1 128422))).map State.out0 = some 56317 := by decide +kernel

/-! ### Control and faults -/

/-- V-C-6. -/
theorem test_nop : (after (exec (.nop 0xABCDEF1) committed)) = some committed := by decide
/-- V-C-1, V-C-2. -/
theorem test_tfwr :
    (after (exec (.tfwr 128422) State.reset)).map (fun t => (t.tFine, t.statusWord)) = some (128422, 2) ∧
    (after (exec (.tfwr 0xFFFFFFF) State.reset)).map State.tFine = some 0xFFFFFFFFFFFFFFFF := by decide
/-- V-C-7, from a faulted state. -/
theorem test_reset :
    (after (exec .reset { faulted with out0 := 7, wmask := 5 })).map (fun t => (t.statusWord, t.out0, t.wmask)) = some (0, 0, 0) := by
  decide +kernel
/-- V-F-2, V-F-4, V-F-5: the guards. -/
theorem test_guards :
    (after (exec (.calrd 0) State.reset)).map State.statusWord = some 0x200 ∧
    (after (exec (.comph 30000) committed)).map State.statusWord = some 0x301 ∧
    (after (exec .calcommit State.reset)).map State.statusWord = some 0x400 := by decide +kernel
/-- V-F-3: NoCalibration comes before NoFineTemperature. -/
theorem test_priority :
    (after (exec (.compp 415148) { State.reset with status := { Status.zero with tfv := true } })).map State.statusWord =
      some 0x202 := by decide +kernel
/-- V-F-1 and V-F-7: an illegal word; a faulted SCP ignores it. -/
theorem test_illegal_word :
    (after (issueWord 0xB0000000 committed)).map State.statusWord = some 0x101 ∧
    after (issueWord 0xF0000001 faulted) = some faulted := by decide +kernel

/-! ### The assembler -/

/-- R80 and R121 examples, and a comment. -/
theorem test_assemble_text :
    (parseLine ['C', 'A', 'L', 'W', 'R', ' ', '2', '9', ',', ' ', '0', 'x', '2', '9', ' ', ';', 'b']) =
      some (some (.calwr 29 0x29)) ∧
    parseLine ['T', 'F', 'W', 'R', ' ', '-', '1'] = some (some (.tfwr (-1))) ∧
    parseLine ['C', 'A', 'L', 'R', 'D', ' ', 'T', '3'] = some (some (.calrdName .t3)) ∧
    parseLine [';', 'x'] = some none ∧ parseLine ['N', 'O', 'P', ' ', '1'] = none := by decide
/-- The words of V-C-2 and R86. -/
theorem test_assemble_words :
    assemble (.tfwr (-1)) = some [0xAFFFFFFF] ∧ assemble (.calrdName .t3) = some [0x30000002] ∧
    assemble (.measure 0x65 0x5A 0xC0 0x7E 0xED 0x00 0x75 0x30) = some [0x707EED00, 0x80655AC0, 0x90007530] := by decide
/-- R68: refused operands. -/
theorem test_assemble_refuses :
    assemble (.calwr 32 0) = none ∧ assemble (.calrd 18) = none ∧ assemble (.comph 65536) = none ∧
    assemble (.compt 1048576) = none ∧ assemble (.tfwr 134217728) = none := by decide
/-- R41: the sensor registers of the staging bytes. -/
theorem test_sensor_registers :
    sensorRegister 0 = 0x88 ∧ sensorRegister 23 = 0x9F ∧ sensorRegister 24 = 0xA1 ∧ sensorRegister 25 = 0xE1 ∧
    sensorRegister 31 = 0xE7 := by decide

/-! ### Witnesses: for every obligation with hypotheses, a state and operands that meet all of them together -/

theorem witness_Running : Running State.reset ∧ Running committed ∧ Running staged ∧ Running (ready cal1 128422) := by decide
theorem witness_Faulted : ¬Running faulted := by decide

theorem witness_DecodeOfEncode : (Instr.calrd 0).wellFormed = true ∧ (Instr.tfwr (-1)).wellFormed = true := by decide
theorem witness_EncodeOfDecode : decode 0x0FFFFFFF = .ok (.nop 0xFFFFFFF) ∧ decode 0x707EED0F = .ok (.comptr 0x7E 0xED 0x0F) := by
  decide
/-- Each ground of R66 at the ends of its range, and legal words beside them. -/
theorem witness_IllegalWord :
    IllegalWord 0xB0000000 ∧ IllegalWord 0xEFFFFFFF ∧ IllegalWord 0x10002000 ∧ IllegalWord 0xF0000001 ∧
    IllegalWord 0x30000012 ∧ IllegalWord 0x3000001F ∧ ¬IllegalWord 0x30000011 ∧ ¬IllegalWord 0xA0000000 ∧
    ¬IllegalWord 0x10001FFF := by decide
theorem witness_OpcodeMapDecides :
    (⟨"CALRD", 0x30000000, 0xFFFFFFE0⟩ : OpcodeRow) ∈ opcodeMap ∧
    OpcodeRow.Matches ⟨"CALRD", 0x30000000, 0xFFFFFFE0⟩ 0x30000011 ∧
    ¬OpcodeRow.Matches ⟨"CALRD", 0x30000000, 0xFFFFFFE0⟩ 0x30000012 := by
  refine ⟨by decide, ⟨by decide, fun _ => by decide⟩, fun h => ?_⟩
  exact absurd (h.2 rfl) (by decide)
theorem witness_AssembledLineDecodes :
    assembleOne (.calwr 31 255) = some 0x10001FFF ∧ assembleOne (.calwr (-1) 0) = none ∧
    assembleOne (.tfwr (-134217728)) = some 0xA8000000 ∧ assembleOne (.tfwr (-134217729)) = none ∧
    assembleOne (.comptr 255 255 255) = some 0x70FFFFFF ∧ assembleOne (.comptr 256 0 0) = none := by decide
theorem witness_AssembledLineDecodes_name :
    assembleOne (.calrdName .h6) = some 0x30000011 ∧ assembleOne (.calrdName .t1) = some 0x30000000 := by decide
theorem witness_WrapIsUniqueRepresentative :
    InRange 32 (-2147483648) ∧ (2 ^ 32 : Int) ∣ -2147483648 - 2147483648 ∧ ¬InRange 32 2147483648 := by
  refine ⟨by norm_num [InRange], by norm_num, by norm_num [InRange]⟩
/-- The divisions of `PrimitivesFollowTheirRules`: one that gives a quotient, one that raises DivOverflow. -/
theorem witness_PrimitivesFollowTheirRules :
    (exact 2).val ≠ 0 ∧ ¬((exact (-7)).val = -(2 ^ (64 - 1)) ∧ (exact 2).val = -1) ∧
    (exact (-(2 ^ 63))).val = -(2 ^ (64 - 1)) ∧ (exact (-1)).val = -1 := by decide +kernel
theorem witness_RawFormsRunTheCodeForm :
    (519888#20).toNat = (0x7E#8).toNat * 4096 + (0xED#8).toNat * 16 + (0x0F#8).toNat / 16 ∧
    (1048575#20).toNat = (0xFF#8).toNat * 4096 + (0xFF#8).toNat * 16 + (0xFF#8).toNat / 16 ∧
    (30000#16).toNat = (0x75#8).toNat * 256 + (0x30#8).toNat := by decide

theorem witness_CalcommitUnpacksTheImage : Running staged ∧ staged.wmask = 0xFFFFFFFF := by decide
theorem witness_CalcommitNeedsEveryByte :
    Running State.reset ∧ State.reset.wmask ≠ 0xFFFFFFFF ∧ ({ staged with wmask := 0x7FFFFFFF } : State).wmask ≠ 0xFFFFFFFF := by
  decide
/-- Images that differ in the low nibble of STG[29] only, and in its high nibble only. -/
theorem witness_SharedByteFeedsEachFieldOnce :
    (∀ i : BitVec 5, i ≠ 29 → imageOf image1 i = (if i = 29 then 0x26 else imageOf image1 i)) ∧
    (imageOf image1 29).toNat / 16 = (0x26#8).toNat / 16 ∧ (imageOf image1 29).toNat % 16 ≠ (0x26#8).toNat % 16 ∧
    (imageOf image1 29).toNat % 16 = (0xF9#8).toNat % 16 ∧ (imageOf image1 29).toNat / 16 ≠ (0xF9#8).toNat / 16 := by decide
theorem witness_CalrdReadsTheCoefficient :
    Running committed ∧ (17#5).toNat ≤ 17 ∧ (0#5).toNat ≤ 17 ∧ committed.status.calv = true := by decide

theorem witness_TemperatureCommandsComplete : Running committed ∧ committed.status.calv = true ∧ adc20 0x7E 0xED 0x0F = 519888 := by
  decide
theorem witness_TemperatureFormulaWithoutOverflow :
    (compT cal1 (exact (519888#20).toNat)).ovf = false ∧ (compT cal1 (exact (0#20).toNat)).ovf = false := by decide +kernel
theorem witness_PressureCommandsComplete :
    Running (ready cal1 128422) ∧ (ready cal1 128422).status.calv = true ∧ (ready cal1 128422).status.tfv = true ∧
    ¬Overflows (ready cal1 128422) (415148#20).toNat ∧ ¬Overflows (ready calZero 128422) (415148#20).toNat ∧
    adc20 0x65 0x5A 0xC0 = 415148 := by decide +kernel
/-- A value with OVF = 0 (V-P-1) and the sentinel with OVF = 0 (V-P-2). -/
theorem witness_PressureFormulaWithoutOverflow :
    compP cal1 (exact (415148#20).toNat) (exact (128422#64).toInt) = .value 25767233 false ∧
    compP calZero (exact (415148#20).toNat) (exact (128422#64).toInt) = .zeroDenominator false := by decide +kernel
theorem witness_ZeroDenominatorGivesTheSentinel :
    Running (ready calZero 128422) ∧ (ready calZero 128422).status.calv = true ∧ (ready calZero 128422).status.tfv = true ∧
    (pressDenominator (ready calZero 128422).cal (exact (ready calZero 128422).tFine.toInt)).val = 0 := by decide +kernel
/-- V-P-7 overflows; COMPP 0 on the same state does not. -/
theorem witness_DivOverflowExactlyMinByMinusOne :
    Running (ready calDiv (-134089984)) ∧ Overflows (ready calDiv (-134089984)) (1048575#20).toNat ∧
    ¬Overflows (ready calDiv (-134089984)) (0#20).toNat ∧
    (after (exec (.compp 1048575) (ready calDiv (-134089984)))).isSome = true := by decide +kernel
theorem witness_HumidityCommandsComplete :
    Running (ready cal1 128422) ∧ (ready cal1 128422).status.calv = true ∧ (ready cal1 128422).status.tfv = true ∧
    adc16 0x75 0x30 = 30000 := by decide
theorem witness_HumidityFormulaWithoutOverflow :
    (compH cal1 (exact (30000#16).toNat) (exact (128422#32).toInt)).ovf = false ∧
    (compH cal1 (exact (0#16).toNat) (exact (128422#32).toInt)).ovf = false := by decide +kernel
/-- The clamp up (V-H-2), down (V-H-3) and neither (V-H-1). -/
theorem witness_ClampRecordsItsDirection :
    (compH cal1 (exact 0) (exact 128422)).hclo = true ∧ (compH cal1 (exact 65535) (exact 128422)).hchi = true ∧
    (compH cal1 (exact 30000) (exact 128422)).hclo = false ∧ (compH cal1 (exact 30000) (exact 128422)).hchi = false := by
  decide +kernel
theorem witness_HumidityReadingWithinBounds :
    mnemonicOf (.comph 65535) ∈ ["COMPH", "COMPHR"] ∧ mnemonicOf (.comphr 0xFF 0xFF) ∈ ["COMPH", "COMPHR"] ∧
    (after (exec (.comph 65535) (ready cal1 128422))).map (fun t => (t.status.fault, t.out0)) = some (none, 102400) := by
  decide +kernel
/-- A committed state with a negative fine temperature meets the invariant, for both values of the parameter. -/
theorem witness_Inv : (ready cal1 (-134217728)).Inv where
  memory := by decide
  fine := by decide
  packed := fun _ => by
    unfold PackedRange
    split <;> decide
  clamp := by decide
  cause := trivial
/-- A faulted state meets it too. -/
theorem witness_Inv_faulted : faulted.Inv where
  memory := by decide
  fine := by decide
  packed := fun h => absurd h (by decide)
  clamp := by decide
  cause := (rfl : faulted.status.calv = false)
theorem witness_StepKeepsTheInvariant :
    after (step { ready cal1 (-134217728) with host := [.command 0x00000000] }) = some (ready cal1 (-134217728)) := by decide
theorem witness_NopDoesNothing : opOf 0x00000000 = 0 ∧ opOf 0x0FFFFFFF = 0 ∧ opOf 0x10000000 ≠ 0 := by decide
theorem witness_ResetClearsTheVisibleState : ({ faulted with host := [.powerOn] } : State).host = .powerOn :: [] := by decide
theorem witness_GuardsRaiseTheirFault :
    (Running State.reset ∧ State.reset.status.calv = false ∧ NeedsCalibration (.calrd 17) ∧ NeedsCalibration (.compt 0)) ∧
    (Running committed ∧ committed.status.calv = true ∧ committed.status.tfv = false ∧ NeedsFine (.compp 0) ∧
      NeedsFine (.comphr 0 0)) :=
  ⟨⟨rfl, rfl, (by decide : (17#5).toNat ≤ 17), trivial⟩, rfl, rfl, rfl, trivial, trivial⟩
/-- Each line of the priority list, and a word that raises nothing. -/
theorem witness_FaultPriorityIsTheListed :
    expectedFault 0x30000012 State.reset = some .illegalCommand ∧ expectedFault 0x500655AC State.reset = some .noCalibration ∧
    expectedFault 0x60007530 committed = some .noFineTemperature ∧ expectedFault 0x20000000 committed = some .stagingIncomplete ∧
    expectedFault 0x80FFFFF0 (ready calDiv (-134089984)) = some .divOverflow ∧
    expectedFault 0x20000000 staged = none ∧ expectedFault 0x500655AC (ready cal1 128422) = none := by decide +kernel
theorem witness_FaultsArePrecise :
    (after (issueWord 0x30000000 State.reset)).any (fun t => t.faulted) = true ∧
    (after (issueWord 0xB0000000 committed)).any (fun t => t.faulted) = true ∧
    (after (exec (.calrd 0) State.reset)).any (fun t => t.faulted) = true := by decide
theorem witness_FaultedIgnoresAllButReset : ¬Running faulted ∧ (0xF0000001 : Word) ≠ 0xF0000000 := by decide
theorem witness_FaultStaysUntilReset :
    ¬Running { faulted with host := [.command 0x00000000, .command 0xF0000001] } ∧
    ∀ e ∈ ([.command 0x00000000, .command 0xF0000001] : List HostEvent), e ≠ .powerOn ∧ e ≠ .command 0xF0000000 := by decide
theorem witness_StepRunsTheDecodedCommand :
    ({ State.reset with host := [.command 0x4007EED0] } : State).host = .command 0x4007EED0 :: [] ∧
    decode 0x4007EED0 = .ok (.compt 519888) := by decide
/-- A host with nothing to do, and a word that decodes. -/
theorem witness_StepWaitsForTheHost : State.reset.host = [] ∧ decode 0x0ABCDEF1 = .ok (.nop 0xABCDEF1) := by decide
/-- A completed command, one on a faulted SCP, and a RESET, each answering a next state. -/
theorem witness_StatusFieldsWrittenAsListed :
    after (exec (.tfwr 5) faulted) = some faulted ∧ ¬Running faulted ∧ mnemonicOf (.tfwr 5) ∈ ["NOP", "CALWR", "TFWR"] ∧
    (after (exec (.tfwr 5) committed)).map (fun t => t.status.fault) = some none ∧
    (after (exec .reset faulted)).isSome = true := by decide +kernel
/-- Two different states no command tells apart. -/
theorem witness_UnspecifiedStateIsNeverRead :
    SameReadable State.reset { State.reset with tFine := 5, cal := cal1, stg := [(3, 0x11)] } ∧
    State.reset ≠ { State.reset with tFine := 5, cal := cal1, stg := [(3, 0x11)] } := by
  refine ⟨⟨rfl, rfl, rfl, rfl, rfl, fun h => absurd h (by decide), fun h => absurd h (by decide), fun i h => ?_⟩, by decide⟩
  exact absurd h (by simp [State.reset])
/-- Running states, a completed and a faulting command, for the statements about which registers a command writes. -/
theorem witness_RegistersWritten :
    (after (exec (.compt 519888) committed)).map State.faulted = some false ∧
    (after (exec (.compp 415148) (ready cal1 128422))).map State.faulted = some false ∧
    (after (exec (.comphr 0x75 0x30) (ready cal1 128422))).map State.faulted = some false ∧
    (after (exec (.compp 0) committed)).map State.faulted = some true ∧
    mnemonicOf (.tfwr 0) ∈ ["NOP", "CALWR", "CALCOMMIT", "TFWR"] ∧ mnemonicOf (.calrd 0) ∉ ["COMPT", "COMPTR", "TFWR", "RESET"] := by
  decide +kernel
theorem witness_StagingInAnyOrder : Running committed ∧ lastWritten [(3, 0x11), (31, 0xFF), (3, 0x22)] 3 0 = 0x22 := by decide
theorem witness_CalloadLoadsTheImage : Running { committed with stg := [(3, 0x11)], wmask := 8 } := by decide
theorem witness_IssuedCommandsRunInOrder : ∀ i ∈ [Instr.calwr 31 0xFF, .calcommit, .calrd 17], i.wellFormed = true := by decide
theorem witness_ReadingsAreTheExactRationals :
    compP (ready cal1 128422).cal (exact (415148#20).toNat) (exact (ready cal1 128422).tFine.toInt) = .value 25767233 false ∧
    (after (exec (.compp 415148) (ready cal1 128422))).map State.faulted = some false ∧
    (after (exec (.compt 519888) committed)).map State.faulted = some false := by decide +kernel

end Sys2Proof.Tests
end

/-! ## The arithmetic primitives (00_scope.md section 5, R8 and R9)

`IsChk` and `InRange` say what R8 and R9 ask without naming `wrapN` and `fitsN`; the lemmas here tie the model's functions to
them once. -/

namespace Sys2Proof.Proofs

open Sys2Proof Sys2Proof.Machine Sys2Proof.Certificates

theorem fitsN_iff_inRange (n : Nat) (x : Int) : fitsN n x = true ↔ InRange n x := fitsN_iff n x

/-- Halving 2^N exactly turns the bounds of `Int.bmod` into the ends of the sN range. -/
theorem wrapN_eq_iff {n : Nat} (hn : 0 < n) (x y : Int) : wrapN n x = y ↔ InRange n y ∧ (2 ^ n : Int) ∣ y - x := by
  obtain ⟨k, rfl⟩ : ∃ k, n = k + 1 := ⟨n - 1, by omega⟩
  have hcast : ((2 ^ (k + 1) : Nat) : Int) = 2 ^ (k + 1) := by norm_cast
  have hdouble : (2 : Int) ^ (k + 1) = 2 * 2 ^ k := pow_succ' 2 k
  have hlow : -((2 : Int) ^ (k + 1) / 2) = -2 ^ k := by omega
  have hhigh (z : Int) : z < ((2 : Int) ^ (k + 1) + 1) / 2 ↔ z ≤ 2 ^ k - 1 := by omega
  rw [wrapN_eq_bmod, Int.bmod_eq_iff (by positivity), hcast, hlow, hhigh, InRange, Nat.add_sub_cancel, and_assoc]

/-- The model's `chkN` is the `chk_N` of R9. -/
theorem chkN_isChk {n : Nat} (hn : 0 < n) (x : Int) (ovf : Bool) : IsChk n x ovf (chkN n x ovf) := by
  obtain ⟨hrange, hdvd⟩ := (wrapN_eq_iff hn x (wrapN n x)).mp rfl
  refine ⟨hrange, hdvd, ?_⟩
  simp [chkN, ← fitsN_iff_inRange]

/-- `asr` rounds toward minus infinity. -/
theorem asr_floor (a : Checked) (k : Nat) :
    (asr a k).val * 2 ^ k ≤ a.val ∧ a.val < ((asr a k).val + 1) * 2 ^ k := by
  have hpos : (0 : Int) < 2 ^ k := by positivity
  exact ⟨Int.ediv_mul_le a.val hpos.ne', Int.lt_ediv_add_one_mul_self a.val hpos⟩

/-- On naturals the signs only matter where an operand is 0, and there the quotient is 0 as well. -/
theorem natCast_tdiv_eq_sign_mul (m n : Nat) :
    (m : Int).tdiv n = (m : Int).sign * (n : Int).sign * ((m / n : Nat) : Int) := by
  rcases m.eq_zero_or_pos with rfl | hm
  · simp
  rcases n.eq_zero_or_pos with rfl | hn
  · simp
  rw [Int.sign_eq_one_of_pos (by exact_mod_cast hm), Int.sign_eq_one_of_pos (by exact_mod_cast hn), Int.ofNat_tdiv]
  ring

/-- Truncating division divides the magnitudes and multiplies the signs. -/
theorem tdiv_eq_sign_mul_natAbs_div (a b : Int) :
    a.tdiv b = a.sign * b.sign * ((a.natAbs / b.natAbs : Nat) : Int) := by
  obtain ⟨m, rfl | rfl⟩ := a.eq_nat_or_neg <;> obtain ⟨n, rfl | rfl⟩ := b.eq_nat_or_neg <;>
    simp only [Int.neg_tdiv, Int.tdiv_neg, Int.sign_neg, Int.natAbs_neg, Int.natAbs_natCast, natCast_tdiv_eq_sign_mul] <;>
    ring

/-- At b = 0, which R9 leaves out, both sides are 0. -/
theorem tdivN_quotient {n : Nat} {a b : Checked} (h : ¬(a.val = -(2 ^ (n - 1)) ∧ b.val = -1)) :
    tdivN n a b = some ⟨a.val.sign * b.val.sign * ((a.val.natAbs / b.val.natAbs : Nat) : Int), a.ovf || b.ovf⟩ := by
  rw [tdivN, if_neg h, tdiv_eq_sign_mul_natAbs_div]

theorem tdivN_raises {n : Nat} {a b : Checked} (ha : a.val = -(2 ^ (n - 1))) (hb : b.val = -1) : tdivN n a b = none :=
  if_pos ⟨ha, hb⟩

/-- Settles O8: `wrapN` is the balanced remainder, which R8's two conditions determine. -/
theorem wrapIsUniqueRepresentative : Obligations.WrapIsUniqueRepresentative := by
  intro n x y hn
  exact wrapN_eq_iff hn x y

/-- Settles O9: the first four primitives are `chkN` of the exact result; `asr` and `tdivN` follow from their own lemmas. -/
theorem primitivesFollowTheirRules : Obligations.PrimitivesFollowTheirRules := by
  intro n a b k hn
  obtain ⟨hle, hlt⟩ := asr_floor a k
  exact ⟨chkN_isChk hn _ _, chkN_isChk hn _ _, chkN_isChk hn _ _, chkN_isChk hn _ _,
    ⟨hle, hlt, asr_ovf a k⟩, fun _ h => tdivN_quotient h, tdivN_raises⟩

end Sys2Proof.Proofs

/-! ## What a command can do, by the command (10_state.md R25, R26, R28, R32)

`exec_induction` says what every command can do without naming the command. The statements that list who may write a register need
the command too, and the invariant needs the cause of a fault; `Effect` keeps both, and `exec_effect` ties it to `exec`. -/

namespace Sys2Proof.Proofs

open Sys2Proof Sys2Proof.Machine Sys2Proof.Certificates

theorem faulted_eq_false_iff (s : State) : s.faulted = false ↔ Running s :=
  Option.isSome_eq_false_iff.trans Option.isNone_iff_eq_none

/-- The commands R130 names at no fault. -/
def faultFree : List String := ["NOP", "CALWR", "TFWR", "RESET"]

theorem notMem_faultFree_of_mem_pair {m a b : String} (h : m ∈ [a, b]) (ha : a ∉ faultFree) (hb : b ∉ faultFree) :
    m ∉ faultFree := by
  obtain rfl | rfl := List.mem_pair.mp h
  · exact ha
  · exact hb

/-- The command is ignored, raises a fault whose cause is in the state, or completes with one of the state's named updates. Values a
command computes are variables, with what the invariant needs to know of them. -/
inductive Effect (s : State) : Instr → State → Prop
  /-- R136. -/
  | ignored {i : Instr} (hs : ¬Running s) (hi : i ≠ .reset) : Effect s i s
  /-- R131. -/
  | fault {i : Instr} {f : FaultCode} (hs : Running s) (hi : mnemonicOf i ∉ faultFree) (hc : CausePresent (s.raise f)) :
      Effect s i (s.raise f)
  | nop (hs : Running s) (operand : BitVec 28) : Effect s (.nop operand) s
  | calwr (hs : Running s) (idx : BitVec 5) (byte : Byte) : Effect s (.calwr idx byte) (s.stageByte idx byte)
  | calcommit (hs : Running s) : Effect s .calcommit (s.commit (unpack Config.h45SignExtend s.stg.read))
  | calrd (hs : Running s) (k : BitVec 5) (v : BitVec 64) : Effect s (.calrd k) (s.writeOut0 v)
  | temperature {i : Instr} (hs : Running s) (hi : mnemonicOf i ∈ ["COMPT", "COMPTR"]) (t : BitVec 64) {tf : Int}
      (htf : fitsN 32 tf = true) (ovf : Bool) : Effect s i (s.writeTemperature t (sext 64 tf) ovf)
  | pressure {i : Instr} (hs : Running s) (hi : mnemonicOf i ∈ ["COMPP", "COMPPR"]) (p : BitVec 64) (zden ovf : Bool) :
      Effect s i (s.writePressure p zden ovf)
  | humidity {i : Instr} (hs : Running s) (hi : mnemonicOf i ∈ ["COMPH", "COMPHR"]) (h : BitVec 64) {hclo hchi : Bool}
      (hboth : ¬(hclo = true ∧ hchi = true)) (ovf : Bool) : Effect s i (s.writeHumidity h hclo hchi ovf)
  | tfwr (hs : Running s) (imm : BitVec 28) : Effect s (.tfwr imm) (s.writeFine (fineImmediate imm))
  | reset : Effect s .reset s.clear

section
variable {s t : State} {i : Instr}

theorem accept_effect {body : State → State} (hi : i ≠ .reset) (hbody : Running s → Effect s i (body s))
    (h : accept s body = .next t) : Effect s i t := by
  rcases accept_cases h with ⟨hf, rfl⟩ | ⟨hf, rfl⟩
  · refine .ignored (fun hs => ?_) hi
    rw [← faulted_eq_false_iff, hf] at hs
    contradiction
  · exact hbody ((faulted_eq_false_iff s).mp hf)

theorem withCalibration_effect {body : State → State} (hs : Running s) (hi : mnemonicOf i ∉ faultFree)
    (hbody : s.status.calv = true → Effect s i (body s)) : Effect s i (withCalibration s body) := by
  rcases withCalibration_cases s body with ⟨hc, he⟩ | ⟨hc, he⟩ <;> rw [he]
  · exact hbody hc
  · exact .fault hs hi hc

theorem temperature_effect (hs : Running s) (hi : mnemonicOf i ∈ ["COMPT", "COMPTR"]) (adc : BitVec 20) :
    Effect s i (temperature adc s) := by
  have hfault := notMem_faultFree_of_mem_pair hi (by decide) (by decide)
  exact withCalibration_effect hs hfault fun _ => .temperature hs hi _ (compT_tf_fits _ _) _

theorem pressure_effect (hs : Running s) (hi : mnemonicOf i ∈ ["COMPP", "COMPPR"]) (adc : BitVec 20) :
    Effect s i (pressure adc s) := by
  have hfault := notMem_faultFree_of_mem_pair hi (by decide) (by decide)
  rcases pressure_cases adc s with ⟨hc, he⟩ | ⟨hc, ht, he⟩ | ⟨hc, ht, ⟨_, _, he⟩ | ⟨_, he⟩ | ⟨_, _, _, he⟩⟩ <;> rw [he]
  · exact .fault hs hfault hc
  · exact .fault hs hfault ⟨hc, ht⟩
  · exact .pressure hs hi _ _ _
  · exact .fault hs hfault ⟨hc, ht⟩
  · exact .pressure hs hi _ _ _

theorem humidity_effect (hs : Running s) (hi : mnemonicOf i ∈ ["COMPH", "COMPHR"]) (adc : BitVec 16) :
    Effect s i (humidity adc s) := by
  have hfault := notMem_faultFree_of_mem_pair hi (by decide) (by decide)
  refine withCalibration_effect hs hfault fun hc => ?_
  rcases withFineTemperature_cases s _ with ⟨_, he⟩ | ⟨ht, he⟩ <;> rw [he]
  · exact .humidity hs hi _ (compH_not_both _ _ _) _
  · exact .fault hs hfault ⟨hc, ht⟩

/-- Every answer of `exec` is one of the effects. -/
theorem exec_effect (h : exec i s = .next t) : Effect s i t := by
  cases i with
  | nop operand =>
    rw [exec_nop] at h
    exact accept_effect nofun (fun hs => .nop hs operand) h
  | calwr idx byte =>
    rw [exec_calwr] at h
    exact accept_effect nofun (fun hs => .calwr hs idx byte) h
  | calcommit =>
    rw [exec_calcommit] at h
    refine accept_effect nofun (fun hs => ?_) h
    split
    · exact .calcommit hs
    · rename_i hg
      exact .fault hs (by decide) (mt s.stgf_iff.mpr hg)
  | calrd k =>
    rw [exec_calrd] at h
    have hfault : mnemonicOf (.calrd k) ∉ faultFree := by simp [mnemonicOf, faultFree]
    refine accept_effect nofun (fun hs => ?_) h
    split
    · exact .fault hs hfault trivial
    · exact withCalibration_effect hs hfault fun _ => .calrd hs k _
  | compt adc => exact accept_effect nofun (fun hs => temperature_effect hs (by simp [mnemonicOf]) adc) h
  | compp adc => exact accept_effect nofun (fun hs => pressure_effect hs (by simp [mnemonicOf]) adc) h
  | comph adc => exact accept_effect nofun (fun hs => humidity_effect hs (by simp [mnemonicOf]) adc) h
  | comptr msb lsb xlsb => exact accept_effect nofun (fun hs => temperature_effect hs (by simp [mnemonicOf]) _) h
  | comppr msb lsb xlsb => exact accept_effect nofun (fun hs => pressure_effect hs (by simp [mnemonicOf]) _) h
  | comphr msb lsb => exact accept_effect nofun (fun hs => humidity_effect hs (by simp [mnemonicOf]) _) h
  | tfwr imm =>
    rw [exec_tfwr] at h
    exact accept_effect nofun (fun hs => .tfwr hs imm) h
  | reset =>
    cases h
    exact .reset

end

theorem eq_reset_iff (i : Instr) : i = .reset ↔ mnemonicOf i = "RESET" := by
  cases i <;> simp [mnemonicOf]

/-- Settles O44: of the updates only `commit` and `clear` name CAL, only `writeTemperature`, `writeFine` and `clear` name T_FINE. -/
theorem calibrationAndFinePersist : Obligations.CalibrationAndFinePersist := by
  intro i s t h
  cases exec_effect h with
  | ignored | fault | nop | calwr | calrd | pressure | humidity => simp
  | calcommit hs => simp [mnemonicOf, hs]
  | temperature hs hi => obtain hi | hi := List.mem_pair.mp hi <;> simp [hi]
  | tfwr => simp [mnemonicOf]
  | reset => simp [mnemonicOf, Status.zero]

/-- Settles O45: OUT0 and OUT1 after each effect; a completed command leaves SCP running, so a command that ends faulted was ignored
or raised its fault. -/
theorem resultRegistersWrittenAsListed : Obligations.ResultRegistersWrittenAsListed := by
  intro i s t h
  cases exec_effect h with
  | ignored hs hi => simp [hs, hi]
  | fault hs hi =>
    have hreset : i ≠ .reset := by
      rintro rfl
      exact hi (by decide)
    simp [hreset]
  | nop hs | calwr hs | calcommit hs | tfwr hs | calrd hs => simp [mnemonicOf, hs]
  | temperature hs hi | pressure hs hi | humidity hs hi =>
    obtain hi | hi := List.mem_pair.mp hi <;> simp [hi, hs, eq_reset_iff]
  | reset => simp [mnemonicOf, Status.zero]

/-- Settles O46: the STATUS fields, STG and WMASK after each effect. -/
theorem statusFieldsWrittenAsListed : Obligations.StatusFieldsWrittenAsListed := by
  refine ⟨fun i s t h hreset => ?_, fun s t h => ?_⟩
  · cases exec_effect h with
    | ignored => simp
    | fault hs hi =>
      have hfree : mnemonicOf i ∉ ["NOP", "CALWR", "TFWR"] := fun hm => hi (List.mem_append_left ["RESET"] hm)
      simp [hs, hfree]
    | nop | calwr | calcommit | tfwr | calrd => simp [mnemonicOf]
    | temperature hs hi | pressure hs hi | humidity hs hi =>
      obtain hi | hi := List.mem_pair.mp hi <;> simp [hi]
    | reset => exact absurd rfl hreset
  · cases h
    exact ⟨s.clear_status, s.clear_wmask, s.clear_host⟩

end Sys2Proof.Proofs

/-! ## The invariant (10_state.md R23, 40_calibration.md R84, 41_compensation.md R105, 60_exceptions.md R131)

Each effect rewrites only some of the invariant's clauses; the others are those of the state before. -/

namespace Sys2Proof.Proofs

open Sys2Proof Sys2Proof.Machine Sys2Proof.Certificates

/-- The packed field is the number R84 gives it: the sixteen bits hold it without wrapping. -/
theorem packed12_toInt (sx : Bool) (high : Byte) (nibble : BitVec 4) :
    (packed12 sx high nibble).toInt = (if sx then high.toInt else high.toNat) * 16 + nibble.toNat := by
  have hnat := high.isLt
  have hnibble := nibble.isLt
  have hlow := BitVec.le_toInt high
  have hup := BitVec.toInt_lt (x := high)
  cases sx <;>
    simp [packed12, BitVec.toInt_add, BitVec.toInt_mul, BitVec.toInt_signExtend_of_le] <;>
    exact Int.bmod_eq_of_le (by omega) (by omega)

theorem packed12_range (sx : Bool) (high : Byte) (nibble : BitVec 4) : PackedRange sx (packed12 sx high nibble) := by
  have hnat := high.isLt
  have hnibble := nibble.isLt
  have hlow := BitVec.le_toInt high
  have hup := BitVec.toInt_lt (x := high)
  rw [PackedRange, packed12_toInt]
  split <;> omega

theorem signExtend_fine_range (x : BitVec 32) :
    -(2 ^ 31) ≤ (x.signExtend 64).toInt ∧ (x.signExtend 64).toInt ≤ 2 ^ 31 - 1 := by
  rw [BitVec.toInt_signExtend_of_le (by norm_num)]
  exact ⟨BitVec.le_toInt x, Int.le_sub_one_of_lt BitVec.toInt_lt⟩

theorem sext_fine_range {x : Int} (h : fitsN 32 x = true) :
    -(2 ^ 31) ≤ (sext 64 x).toInt ∧ (sext 64 x).toInt ≤ 2 ^ 31 - 1 := by
  rw [sext_toInt (by norm_num) (fits64_of_fits32 h)]
  exact (fitsN_iff 32 x).mp h

theorem causePresent_of_running {s : State} (h : Running s) : CausePresent s := by
  rw [CausePresent, h]
  trivial

theorem inv_withHost {s : State} (h : s.Inv) (rest : List HostEvent) : (s.withHost rest).Inv := { h with }

/-- A reset needs no invariant before it: every clause is about a value it writes (T_FINE by log entry 7). -/
theorem inv_clear (s : State) : s.clear.Inv where
  memory := Memory.unspecified_wf _ _
  fine := signExtend_fine_range _
  packed := nofun
  clamp := nofun
  cause := trivial

theorem inv_of_effect {s t : State} {i : Instr} (h : s.Inv) (he : Effect s i t) : t.Inv := by
  cases he with
  | ignored | nop => exact h
  | fault _ _ hc => exact { h with cause := hc }
  | calwr hs => exact { h with memory := Memory.write_wf _ _ _ h.memory, cause := causePresent_of_running hs }
  | calcommit hs =>
    exact { h with packed := fun _ => ⟨packed12_range _ _ _, packed12_range _ _ _⟩, cause := causePresent_of_running hs }
  | calrd hs | pressure hs => exact { h with cause := causePresent_of_running hs }
  | temperature hs _ _ htf => exact { h with fine := sext_fine_range htf, cause := causePresent_of_running hs }
  | humidity hs _ _ hboth => exact { h with clamp := hboth, cause := causePresent_of_running hs }
  | tfwr hs => exact { h with fine := signExtend_fine_range _, cause := causePresent_of_running hs }
  | reset => exact inv_clear s

/-- Settles O42: a step is a command's effect, an IllegalCommand (whose cause clause asks nothing), a reset, or no change but to the
host's list. -/
theorem stepKeepsTheInvariant : Obligations.StepKeepsTheInvariant := by
  intro s t hinv hstep
  refine step_induction s (P := fun s t => s.Inv → t.Inv) ?idle ?run ?illegal ?ignored ?power hstep hinv
  case idle => exact fun _ h => h
  case run => exact fun _ _ rest _ he h => inv_of_effect (inv_withHost h rest) (exec_effect he)
  case illegal => exact fun _ _ _ h => { h with cause := trivial }
  case ignored => exact fun _ rest _ h => inv_withHost h rest
  case power => exact fun _ _ _ => inv_clear _

/-- The low 32 bits of a value in the s32 range spell the same integer: both patterns are that integer reduced modulo 2^32. -/
theorem extractLow_toInt_of_s32 {x : BitVec 64} (hlow : -(2 ^ 31) ≤ x.toInt) (hhigh : x.toInt ≤ 2 ^ 31 - 1) :
    (x.extractLsb' 0 32).toInt = x.toInt :=
  calc (x.extractLsb' 0 32).toInt
    _ = (x.toNat : Int).bmod (2 ^ 32) := by rw [BitVec.toInt_extractLsb', Nat.shiftRight_zero]
    _ = x.toInt.bmod (2 ^ 32) := by rw [BitVec.toInt_eq_toNat_bmod, Int.bmod_bmod_of_dvd (by norm_num)]
    _ = x.toInt := Int.bmod_eq_of_le (by omega) (by omega)

/-- Settles O28, from the invariant's T_FINE clause. -/
theorem bothStagesReadTheSameFine : Obligations.BothStagesReadTheSameFine := by
  intro s h
  obtain ⟨hlow, hhigh⟩ := h.fine
  have hfine : (fine32 s.tFine).val = s.tFine.toInt := extractLow_toInt_of_s32 hlow hhigh
  exact ⟨hfine.symm, hfine⟩

end Sys2Proof.Proofs

/-! ## Unspecified state is never read (10_state.md R22, R24, R28, R31)

`SameReadable` is kept by every named update, then by every guard (a guard that passes makes the register it guards equal), then by
every command and every step. -/

namespace Sys2Proof.Proofs

open Sys2Proof Sys2Proof.Machine Sys2Proof.Certificates

section
variable {s t s' t' : State}

theorem sameReadable_view (h : SameReadable s t) : s.view = t.view := by
  simp only [State.view, State.statusWord, State.stgf, h.out0, h.out1, h.status, h.wmask]

/-! ### The named updates -/

theorem sameReadable_withHost (h : SameReadable s t) (rest : List HostEvent) :
    SameReadable (s.withHost rest) (t.withHost rest) := { h with host := rfl }

theorem sameReadable_raise (h : SameReadable s t) (f : FaultCode) : SameReadable (s.raise f) (t.raise f) :=
  { h with status := by simp [h.status] }

theorem sameReadable_writeOut0 (h : SameReadable s t) (v : BitVec 64) : SameReadable (s.writeOut0 v) (t.writeOut0 v) :=
  { h with out0 := rfl }

theorem sameReadable_writeFine (h : SameReadable s t) (v : BitVec 64) : SameReadable (s.writeFine v) (t.writeFine v) :=
  { h with status := by simp [h.status], tFine := fun _ => rfl }

theorem sameReadable_writeTemperature (h : SameReadable s t) (v tf : BitVec 64) (ovf : Bool) :
    SameReadable (s.writeTemperature v tf ovf) (t.writeTemperature v tf ovf) :=
  { h with out0 := rfl, out1 := rfl, status := by simp [h.status], tFine := fun _ => rfl }

theorem sameReadable_writePressure (h : SameReadable s t) (p : BitVec 64) (zden ovf : Bool) :
    SameReadable (s.writePressure p zden ovf) (t.writePressure p zden ovf) :=
  { h with out0 := rfl, out1 := rfl, status := by simp [h.status] }

theorem sameReadable_writeHumidity (h : SameReadable s t) (v : BitVec 64) (hclo hchi ovf : Bool) :
    SameReadable (s.writeHumidity v hclo hchi ovf) (t.writeHumidity v hclo hchi ovf) :=
  { h with out0 := rfl, out1 := rfl, status := by simp [h.status] }

/-- CALWR sets the WMASK bit of its index and no other (R80). -/
theorem wmask_stageByte (s : State) (idx i : BitVec 5) (byte : Byte) :
    (s.stageByte idx byte).wmask.getLsbD i.toNat = (s.wmask.getLsbD i.toNat || decide (i = idx)) := by
  have hidx : idx.toNat < 32 := idx.isLt
  have hbit : (1#32 <<< idx.toNat).getLsbD i.toNat = decide (i = idx) := by
    rw [← BitVec.twoPow_eq, BitVec.getLsbD_twoPow]
    simp [hidx, BitVec.toNat_inj, eq_comm]
  rw [State.stageByte_wmask, BitVec.getLsbD_or, hbit]

theorem sameReadable_stageByte (h : SameReadable s t) (idx : BitVec 5) (byte : Byte) :
    SameReadable (s.stageByte idx byte) (t.stageByte idx byte) where
  __ := h
  wmask := by simp [h.wmask]
  stg i hi := by
    by_cases he : i = idx
    · simp [he]
    · simp only [wmask_stageByte, he, decide_false, Bool.or_false] at hi
      simp [Memory.read_write_other _ _ he, h.stg i hi]

theorem sameReadable_commit (h : SameReadable s t) (c : Cal) : SameReadable (s.commit c) (t.commit c) :=
  { h with status := by simp [h.status], wmask := rfl, cal := fun _ => rfl, tFine := nofun, stg := by simp }

theorem sameReadable_clear (h : SameReadable s t) : SameReadable s.clear t.clear where
  out0 := rfl
  out1 := rfl
  status := rfl
  wmask := rfl
  host := h.host
  cal := nofun
  tFine := nofun
  stg := by simp

/-! ### The guards -/

theorem sameReadable_accept {body : State → State} (h : SameReadable s t) (hbody : SameReadable (body s) (body t))
    (hs : accept s body = .next s') (ht : accept t body = .next t') : SameReadable s' t' := by
  have hf : s.faulted = t.faulted := by simp only [State.faulted, h.status]
  rcases accept_cases hs with ⟨hsf, rfl⟩ | ⟨hsf, rfl⟩ <;> rcases accept_cases ht with ⟨htf, rfl⟩ | ⟨htf, rfl⟩
  · exact h
  · simp [hf, htf] at hsf
  · simp [hf, htf] at hsf
  · exact hbody

theorem sameReadable_withCalibration {body : State → State} (h : SameReadable s t)
    (hbody : s.cal = t.cal → SameReadable (body s) (body t)) :
    SameReadable (withCalibration s body) (withCalibration t body) := by
  rw [withCalibration, withCalibration, ← h.status]
  split
  · rename_i hc
    exact hbody (h.cal hc)
  · exact sameReadable_raise h _

theorem sameReadable_withFineTemperature {body : State → State} (h : SameReadable s t)
    (hbody : s.tFine = t.tFine → SameReadable (body s) (body t)) :
    SameReadable (withFineTemperature s body) (withFineTemperature t body) := by
  rw [withFineTemperature, withFineTemperature, ← h.status]
  split
  · rename_i hf
    exact hbody (h.tFine hf)
  · exact sameReadable_raise h _

/-- CALCOMMIT's guard: with every WMASK bit set the whole staging image is readable (R28, R135). -/
theorem read_eq_of_stgf (h : SameReadable s t) (hg : s.stgf = true) : s.stg.read = t.stg.read := by
  funext i
  refine h.stg i ?_
  rw [s.stgf_iff.mp hg, show (0xFFFFFFFF : BitVec 32) = BitVec.allOnes 32 from rfl, BitVec.getLsbD_allOnes]
  exact decide_eq_true i.isLt

/-! ### Commands, words and steps -/

theorem sameReadable_temperature (h : SameReadable s t) (adc : BitVec 20) :
    SameReadable (temperature adc s) (temperature adc t) := by
  refine sameReadable_withCalibration h fun hcal => ?_
  rw [hcal]
  exact sameReadable_writeTemperature h _ _ _

theorem sameReadable_pressure (h : SameReadable s t) (adc : BitVec 20) :
    SameReadable (pressure adc s) (pressure adc t) := by
  refine sameReadable_withCalibration h fun hcal => sameReadable_withFineTemperature h fun hfine => ?_
  rw [hcal, hfine]
  split
  · exact sameReadable_writePressure h _ _ _
  · exact sameReadable_raise h _
  · exact sameReadable_writePressure h _ _ _

theorem sameReadable_humidity (h : SameReadable s t) (adc : BitVec 16) :
    SameReadable (humidity adc s) (humidity adc t) := by
  refine sameReadable_withCalibration h fun hcal => sameReadable_withFineTemperature h fun hfine => ?_
  rw [hcal, hfine]
  exact sameReadable_writeHumidity h _ _ _ _

theorem sameReadable_exec {i : Instr} (h : SameReadable s t) (hs : exec i s = .next s') (ht : exec i t = .next t') :
    SameReadable s' t' := by
  cases i with
  | nop operand =>
    rw [exec_nop] at hs ht
    exact sameReadable_accept h h hs ht
  | calwr idx byte =>
    rw [exec_calwr] at hs ht
    exact sameReadable_accept h (sameReadable_stageByte h idx byte) hs ht
  | calcommit =>
    rw [exec_calcommit] at hs ht
    refine sameReadable_accept h ?_ hs ht
    have hstgf : s.stgf = t.stgf := by simp only [State.stgf, h.wmask]
    rw [← hstgf]
    split
    · rename_i hg
      rw [read_eq_of_stgf h hg]
      exact sameReadable_commit h _
    · exact sameReadable_raise h _
  | calrd k =>
    rw [exec_calrd] at hs ht
    refine sameReadable_accept h ?_ hs ht
    split
    · exact sameReadable_raise h _
    · refine sameReadable_withCalibration h fun hcal => ?_
      rw [hcal]
      exact sameReadable_writeOut0 h _
  | compt adc => exact sameReadable_accept h (sameReadable_temperature h adc) hs ht
  | compp adc => exact sameReadable_accept h (sameReadable_pressure h adc) hs ht
  | comph adc => exact sameReadable_accept h (sameReadable_humidity h adc) hs ht
  | comptr msb lsb xlsb => exact sameReadable_accept h (sameReadable_temperature h _) hs ht
  | comppr msb lsb xlsb => exact sameReadable_accept h (sameReadable_pressure h _) hs ht
  | comphr msb lsb => exact sameReadable_accept h (sameReadable_humidity h _) hs ht
  | tfwr imm =>
    rw [exec_tfwr] at hs ht
    exact sameReadable_accept h (sameReadable_writeFine h _) hs ht
  | reset =>
    cases hs
    cases ht
    exact sameReadable_clear h

theorem sameReadable_issueWord {w : Word} (h : SameReadable s t) (hs : issueWord w s = .next s')
    (ht : issueWord w t = .next t') : SameReadable s' t' := by
  cases hd : decode w with
  | ok i =>
    rw [issueWord_ok hd] at hs ht
    exact sameReadable_exec h hs ht
  | error r =>
    rw [issueWord_error hd] at hs ht
    exact sameReadable_accept h (sameReadable_raise h _) hs ht

theorem sameReadable_step (h : SameReadable s t) (hs : step s = .next s') (ht : step t = .next t') :
    SameReadable s' t' := by
  cases hhost : s.host with
  | nil =>
    rw [step_idle hhost] at hs
    rw [step_idle (h.host ▸ hhost)] at ht
    cases hs
    cases ht
    exact h
  | cons e rest =>
    have hrest := sameReadable_withHost h rest
    cases e with
    | command w =>
      rw [step_command hhost] at hs
      rw [step_command (h.host ▸ hhost)] at ht
      exact sameReadable_issueWord hrest hs ht
    | powerOn =>
      rw [step_powerOn hhost] at hs
      rw [step_powerOn (h.host ▸ hhost)] at ht
      cases hs
      cases ht
      exact sameReadable_clear hrest

end

/-- Settles O43: steps keep `SameReadable`, and it contains all the host reads. -/
theorem unspecifiedStateIsNeverRead : Obligations.UnspecifiedStateIsNeverRead := by
  intro s t s' t' h hs ht
  have h' := sameReadable_step h hs ht
  exact ⟨h', sameReadable_view h'⟩

end Sys2Proof.Proofs

/-! ## The STATUS word and the state after reset (10_state.md R26, R31)

`State.statusWord` appends its low bits one at a time, so bit i of it is bit 0 of what is left after i of them. -/

namespace Sys2Proof.Proofs

open Sys2Proof Sys2Proof.Machine Sys2Proof.Certificates

theorem getLsbD_appendBit_zero {n : Nat} (x : BitVec n) (b : BitVec 1) : (x ++ b).getLsbD 0 = b.getLsbD 0 := by
  rw [BitVec.getLsbD_append, if_pos Nat.one_pos]

theorem getLsbD_appendBit_succ {n : Nat} (x : BitVec n) (b : BitVec 1) (i : Nat) :
    (x ++ b).getLsbD (i + 1) = x.getLsbD i := by
  rw [BitVec.getLsbD_append, if_neg (by omega), Nat.add_sub_cancel]

theorem toNat_appendBit_div {n : Nat} (x : BitVec n) (b : BitVec 1) (k : Nat) :
    (x ++ b).toNat / 2 ^ (k + 1) = x.toNat / 2 ^ k := by
  have hb := b.isLt
  rw [BitVec.toNat_append, ← Nat.shiftLeft_add_eq_or_of_lt hb, pow_succ', ← Nat.div_div_eq_div_mul]
  congr 1
  omega

/-- Above its eight low bits the STATUS word is STATUS.FAULT. -/
theorem statusWord_div (s : State) : s.statusWord.toNat / 2 ^ 8 = s.status.faultBits.toNat := by
  have htop : (0#20 ++ s.status.faultBits).toNat = s.status.faultBits.toNat := by
    rw [BitVec.toNat_append]
    simp
  simpa only [State.statusWord, toNat_appendBit_div, pow_zero, Nat.div_one] using htop

/-- Settles O47: the low bits one by one, and the rest of the word from `statusWord_div`. -/
theorem statusWordLayout : Obligations.StatusWordLayout := by
  intro s
  have hdiv := statusWord_div s
  have hlt := s.status.faultBits.isLt
  refine ⟨?calv, ?tfv, ?zden, ?hclo, ?hchi, ?ovf, ?stgf, ?reserved, by omega, ?fault⟩
  case calv | tfv | zden | hclo | hchi | ovf =>
    simp only [State.statusWord, getLsbD_appendBit_zero, getLsbD_appendBit_succ, BitVec.getLsbD_ofBool, decide_true,
      Bool.true_and]
  case stgf =>
    simp only [State.statusWord, getLsbD_appendBit_zero, getLsbD_appendBit_succ, BitVec.getLsbD_ofBool, decide_true,
      Bool.true_and, State.stgf_iff]
  case reserved =>
    simp only [State.statusWord, getLsbD_appendBit_zero, getLsbD_appendBit_succ]
    rfl
  case fault =>
    rw [hdiv, Nat.mod_eq_of_lt hlt, Status.faultBits]
    cases s.status.fault with
    | none => rfl
    | some f => cases f <;> rfl

/-- Settles O40: the STATUS word of zero fields is computed; the other values are the fields of `State.reset`. -/
theorem resetStateValues : Obligations.ResetStateValues := ⟨by decide, rfl, rfl, rfl, rfl⟩

end Sys2Proof.Proofs

/-! ## Bytes, nibbles and raw codes (20_memory.md R44, R45) -/

namespace Sys2Proof.Proofs

open Sys2Proof Sys2Proof.Machine Sys2Proof.Certificates

theorem toNat_append_eq_add {n m : Nat} (x : BitVec n) (y : BitVec m) : (x ++ y).toNat = x.toNat * 2 ^ m + y.toNat := by
  rw [BitVec.toNat_append, ← Nat.shiftLeft_add_eq_or_of_lt y.isLt, Nat.shiftLeft_eq]

theorem lowNibble_toNat (b : Byte) : (b.extractLsb' 0 4).toNat = b.toNat % 16 := by
  rw [BitVec.extractLsb'_toNat, Nat.shiftRight_zero]

theorem highNibble_toNat (b : Byte) : (b.extractLsb' 4 4).toNat = b.toNat / 16 := by
  have hb := b.isLt
  rw [BitVec.extractLsb'_toNat, Nat.shiftRight_eq_div_pow]
  omega

/-- Settles O10: a concatenation weighs its high part by the width of its low part. -/
theorem rawCodesAssembleMsbFirst : Obligations.RawCodesAssembleMsbFirst := by
  refine ⟨fun msb lsb xlsb => ?_, fun msb lsb => toNat_append_eq_add msb lsb⟩
  rw [adc20, toNat_append_eq_add, toNat_append_eq_add, highNibble_toNat]
  omega

section
variable {img jmg : BitVec 5 → Byte}

theorem littleEndian_congr {i : BitVec 5} (hlow : img i = jmg i) (hhigh : img (i + 1) = jmg (i + 1)) :
    littleEndian img i = littleEndian jmg i := by
  rw [littleEndian, littleEndian, hlow, hhigh]

/-- Byte 29 is in no field but H4 and H5 (R41, R44). -/
theorem unpack_eq_except_h4_h5 (sx : Bool) (h : ∀ i, i ≠ 29 → img i = jmg i) :
    unpack sx jmg = { unpack sx img with h4 := (unpack sx jmg).h4, h5 := (unpack sx jmg).h5 } := by
  have field (i : BitVec 5) (hlow : i ≠ 29) (hhigh : i + 1 ≠ 29) : littleEndian jmg i = littleEndian img i :=
    (littleEndian_congr (h i hlow) (h (i + 1) hhigh)).symm
  have byte (i : BitVec 5) (hi : i ≠ 29) : jmg i = img i := (h i hi).symm
  simp (disch := decide) only [unpack, field, byte]

/-- H4 takes the low nibble of byte 29 only (R44). -/
theorem unpack_h4_congr (sx : Bool) (hbyte : img 28 = jmg 28) (hnibble : (img 29).toNat % 16 = (jmg 29).toNat % 16) :
    (unpack sx img).h4 = (unpack sx jmg).h4 := by
  have hlow : (img 29).extractLsb' 0 4 = (jmg 29).extractLsb' 0 4 :=
    BitVec.eq_of_toNat_eq (by rw [lowNibble_toNat, lowNibble_toNat, hnibble])
  rw [unpack, unpack, hbyte, hlow]

/-- H5 takes the high nibble of byte 29 only (R44). -/
theorem unpack_h5_congr (sx : Bool) (hbyte : img 30 = jmg 30) (hnibble : (img 29).toNat / 16 = (jmg 29).toNat / 16) :
    (unpack sx img).h5 = (unpack sx jmg).h5 := by
  have hhigh : (img 29).extractLsb' 4 4 = (jmg 29).extractLsb' 4 4 :=
    BitVec.eq_of_toNat_eq (by rw [highNibble_toNat, highNibble_toNat, hnibble])
  rw [unpack, unpack, hbyte, hhigh]

end

/-- Settles O16: byte 29 feeds only H4 and H5, and each of them reads one nibble of it. -/
theorem sharedByteFeedsEachFieldOnce : Obligations.SharedByteFeedsEachFieldOnce := by
  intro sx img jmg h
  have hexcept := unpack_eq_except_h4_h5 sx h
  constructor
  · intro hhigh
    rwa [← unpack_h5_congr sx (h 30 (by decide)) hhigh] at hexcept
  · intro hlow
    rwa [← unpack_h4_congr sx (h 28 (by decide)) hlow] at hexcept

end Sys2Proof.Proofs

/-! ## The decoder reads back what the encoder writes (30_encoding.md R61 to R65) -/

namespace Sys2Proof.Proofs

open Sys2Proof

theorem opcode_encode (i : Instr) : (encode i).extractLsb' 28 4 = Laws.OpcodeField.opcode i := by
  cases i with
  | nop operand => exact Laws.OpcodeField.nop operand
  | calwr idx byte => exact Laws.OpcodeField.calwr idx byte
  | calcommit => exact Laws.OpcodeField.calcommit
  | calrd k => exact Laws.OpcodeField.calrd k
  | compt adc => exact Laws.OpcodeField.compt adc
  | compp adc => exact Laws.OpcodeField.compp adc
  | comph adc => exact Laws.OpcodeField.comph adc
  | comptr msb lsb xlsb => exact Laws.OpcodeField.comptr msb lsb xlsb
  | comppr msb lsb xlsb => exact Laws.OpcodeField.comppr msb lsb xlsb
  | comphr msb lsb => exact Laws.OpcodeField.comphr msb lsb
  | tfwr imm => exact Laws.OpcodeField.tfwr imm
  | reset => exact Laws.OpcodeField.reset

/-- The opcode selects the command's own row of the decoder; there each field read drops the fields below it, the reserved field
reads 0, and only CALRD has a check left, which is its well-formedness. -/
theorem decode_encode {i : Instr} (h : i.wellFormed = true) : decode (encode i) = .ok i := by
  rw [decode, opcode_encode]
  cases i <;> simp only [Laws.OpcodeField.opcode, BitVec.reduceToNat]
  case nop | tfwr => rw [encode, BitVec.extractLsb'_append_eq_right]
  case calrd k =>
    have hk : (encode (.calrd k)).extractLsb' 0 5 = k := BitVec.extractLsb'_append_eq_right
    have hzero : (encode (.calrd k)).extractLsb' 5 23 = 0 :=
      (BitVec.extractLsb'_append_eq_of_le (by decide)).trans BitVec.extractLsb'_append_eq_right
    rw [zeroAbove, if_pos hzero, hk]
    exact if_pos h
  all_goals
    simp (disch := decide) only [zeroAbove, encode, BitVec.extractLsb'_append_eq_right, BitVec.extractLsb'_append_eq_of_le,
      Nat.reduceSub, BitVec.ofNat_eq_ofNat, if_true]

end Sys2Proof.Proofs

/-! ## Issued commands run in order (20_memory.md R50, 60_exceptions.md R153) -/

namespace Sys2Proof.Proofs

open Sys2Proof Sys2Proof.Machine Sys2Proof.Certificates

theorem issueAll_cons {i : Instr} {s t : State} (h : exec i s = .next t) (is : List Instr) :
    issueAll (i :: is) s = issueAll is t := by
  rw [issueAll, h]

/-- A step takes the first command issued and leaves the others issued. -/
theorem step_issue_cons {i : Instr} {s t : State} (hi : i.wellFormed = true) (h : exec i s = .next t) (is : List Instr) :
    step (s.issue (i :: is)) = .next (t.issue is) := by
  obtain ⟨u, hu, hany⟩ := exec_answers s i
  obtain rfl : t = u := Host.Outcome.next.inj (h.symm.trans hu)
  rw [step_command (s := s.issue (i :: is)) rfl, issueWord_ok (decode_encode hi), State.issue, State.issue,
    State.withHost_withHost, exec_host s i t h]
  exact hany _

/-- Settles O50, by induction on the commands: every command answers a next state, and its word is its own. -/
theorem issuedCommandsRunInOrder : Obligations.IssuedCommandsRunInOrder := by
  intro is
  induction is with
  | nil => exact fun s _ => run_zero s
  | cons i is ih =>
    intro s hwf
    obtain ⟨hi, his⟩ := List.forall_mem_cons.mp hwf
    obtain ⟨t, ht, -⟩ := exec_answers s i
    rw [List.length_cons, run_succ (step_issue_cons hi ht is), issueAll_cons ht]
    exact ih t his

end Sys2Proof.Proofs

/-! ## A command word and its numbers (30_encoding.md R61, R68)

`wordNumber` is R68's arithmetic for the word of a command. With `field_toNat` it turns a goal about the encoder or the decoder
into one about numbers. -/

namespace Sys2Proof.Proofs

open Sys2Proof Sys2Proof.Machine Sys2Proof.Certificates

/-- The word of a command as a number (R68). -/
def wordNumber : Instr → Nat
  | .nop operand => operand.toNat
  | .calwr idx byte => 0x10000000 + idx.toNat * 0x100 + byte.toNat
  | .calcommit => 0x20000000
  | .calrd k => 0x30000000 + k.toNat
  | .compt adc => 0x40000000 + adc.toNat
  | .compp adc => 0x50000000 + adc.toNat
  | .comph adc => 0x60000000 + adc.toNat
  | .comptr msb lsb xlsb => 0x70000000 + msb.toNat * 0x10000 + lsb.toNat * 0x100 + xlsb.toNat
  | .comppr msb lsb xlsb => 0x80000000 + msb.toNat * 0x10000 + lsb.toNat * 0x100 + xlsb.toNat
  | .comphr msb lsb => 0x90000000 + msb.toNat * 0x100 + lsb.toNat
  | .tfwr imm => 0xA0000000 + imm.toNat
  | .reset => 0xF0000000

theorem encode_toNat (i : Instr) : (encode i).toNat = wordNumber i := by
  cases i <;> simp only [encode, wordNumber, toNat_append_eq_add, BitVec.toNat_ofNat] <;> omega

theorem field_toNat (w : Word) (lo len : Nat) : (w.extractLsb' lo len).toNat = w.toNat / 2 ^ lo % 2 ^ len := by
  rw [BitVec.extractLsb'_toNat, Nat.shiftRight_eq_div_pow]

theorem opcodeField_toNat (w : Word) : (w.extractLsb' 28 4).toNat = opOf w := by
  have hw := w.isLt
  rw [field_toNat, opOf]
  omega

/-- A reserved-zero field is accepted exactly when its number is 0 (R61). -/
theorem zeroAbove_eq_ok_iff {lo : Nat} {w : Word} {i j : Instr} :
    zeroAbove lo w i = .ok j ↔ w.toNat / 2 ^ lo % 2 ^ (28 - lo) = 0 ∧ i = j := by
  have hfield : w.toNat / 2 ^ lo % 2 ^ (28 - lo) = 0 ↔ w.extractLsb' lo (28 - lo) = 0 := by
    rw [← field_toNat, ← BitVec.toNat_inj]
    rfl
  rw [zeroAbove, hfield]
  split <;> simp_all

theorem legalIndex_eq_ok_iff {k : BitVec 5} {i : Instr} : legalIndex k = .ok i ↔ k.toNat ≤ 17 ∧ .calrd k = i := by
  simp only [legalIndex, Instr.wellFormed, decide_eq_true_iff]
  split <;> simp_all

/-- CALRD's two checks in their order (R65). -/
theorem calrdRow_eq_ok_iff {w : Word} {k : BitVec 5} {i : Instr} :
    (zeroAbove 5 w (.calrd k) >>= fun _ => legalIndex k) = .ok i ↔
      w.toNat / 2 ^ 5 % 2 ^ 23 = 0 ∧ k.toNat ≤ 17 ∧ .calrd k = i := by
  rw [← legalIndex_eq_ok_iff]
  cases hz : zeroAbove 5 w (.calrd k) with
  | ok j =>
    obtain ⟨hzero, -⟩ := zeroAbove_eq_ok_iff.mp hz
    exact (and_iff_right hzero).symm
  | error r =>
    have hzero : ¬w.toNat / 2 ^ 5 % 2 ^ 23 = 0 := fun h => by
      rw [zeroAbove_eq_ok_iff.mpr ⟨h, rfl⟩] at hz
      cases hz
    exact iff_of_false nofun fun h => hzero h.1

/-- The fields of a row cover the word, so the command read from them has no other word. `split` numbers the decoder's rows in their
order: NOP and TFWR (1 and 11) have no check, CALRD (4) has two, the reserved opcodes (13) answer no command. -/
theorem encode_of_decode {w : Word} {i : Instr} (h : decode w = .ok i) : i.wellFormed = true ∧ encode i = w := by
  have hw := w.isLt
  rw [← BitVec.toNat_inj, encode_toNat]
  rw [decode, opcodeField_toNat, opOf] at h
  split at h
  case h_1 | h_11 =>
    cases h
    refine ⟨rfl, ?_⟩
    simp only [wordNumber, field_toNat]
    omega
  case h_4 =>
    obtain ⟨hzero, hk, rfl⟩ := calrdRow_eq_ok_iff.mp h
    refine ⟨decide_eq_true hk, ?_⟩
    simp only [wordNumber, field_toNat]
    omega
  case h_13 => cases h
  all_goals
    obtain ⟨hzero, rfl⟩ := zeroAbove_eq_ok_iff.mp h
    refine ⟨rfl, ?_⟩
    simp only [wordNumber, field_toNat]
    omega

/-- Settles O1, which `decode_encode` states. -/
theorem decodeOfEncode : Obligations.DecodeOfEncode := fun _ => decode_encode

/-- Settles O2, which `encode_of_decode` states. -/
theorem encodeOfDecode : Obligations.EncodeOfDecode := fun _ _ => encode_of_decode

end Sys2Proof.Proofs

/-! ## Illegal words and the opcode map (30_encoding.md R64, R66)

R64 and R66 name fields of a word by masks, the decoder by their positions; `and_fieldMask_eq_iff` joins the two. A row of the opcode
map is its OP and its format's reserved-zero bits, so that O4 follows from O3. -/

namespace Sys2Proof.Proofs

open Sys2Proof Sys2Proof.Machine Sys2Proof.Certificates

/-- The mask of the field of `len` bits whose lowest is bit `lo`. -/
def fieldMask (lo len : Nat) : Word := (BitVec.allOnes len).setWidth 32 <<< lo

theorem getLsbD_fieldMask (lo len i : Nat) :
    (fieldMask lo len).getLsbD i = decide (lo ≤ i ∧ i < lo + len ∧ i < 32) := by
  rw [Bool.eq_iff_iff]
  simp only [fieldMask, BitVec.getLsbD_shiftLeft, BitVec.getLsbD_setWidth, BitVec.getLsbD_allOnes, Bool.and_eq_true,
    Bool.not_eq_true', decide_eq_true_eq, decide_eq_false_iff_not]
  omega

/-- Under a field's mask two words agree exactly when the field has the same number in both. -/
theorem and_fieldMask_eq_iff {lo len : Nat} (h : lo + len ≤ 32) (v w : Word) :
    w &&& fieldMask lo len = v &&& fieldMask lo len ↔
      w.toNat / 2 ^ lo % 2 ^ len = v.toNat / 2 ^ lo % 2 ^ len := by
  rw [← field_toNat, ← field_toNat, BitVec.toNat_inj]
  constructor
  · intro he
    refine BitVec.eq_of_getLsbD_eq fun i hi => ?_
    have hbit := congrArg (BitVec.getLsbD · (lo + i)) he
    simpa [-BitVec.getLsbD_eq_getElem, getLsbD_fieldMask, hi, show lo + i < 32 by omega] using hbit
  · intro he
    refine BitVec.eq_of_getLsbD_eq fun i hi => ?_
    rw [BitVec.getLsbD_and, BitVec.getLsbD_and, getLsbD_fieldMask]
    by_cases hf : lo ≤ i ∧ i < lo + len ∧ i < 32
    · obtain ⟨hlow, hhigh, -⟩ := hf
      have hbit := congrArg (BitVec.getLsbD · (i - lo)) he
      simp only [BitVec.getLsbD_extractLsb', Nat.add_sub_cancel' hlow, show i - lo < len by omega, decide_true,
        Bool.true_and] at hbit
      rw [hbit]
    · simp only [hf, decide_false, Bool.and_false]

theorem and_fieldMask_eq_zero_iff {lo len : Nat} (h : lo + len ≤ 32) (w : Word) :
    w &&& fieldMask lo len = 0#32 ↔ w.toNat / 2 ^ lo % 2 ^ len = 0 := by
  simpa using and_fieldMask_eq_iff h 0 w

/-- A row with no check but its reserved-zero field: R66's second ground decides. -/
theorem zeroAbove_isOk_iff {w : Word} {op lo : Nat} (j : Instr) (hop : opOf w = op) (hlo : lo ≤ 28)
    (hmask : reservedZeroBits op = fieldMask lo (28 - lo)) (hother : ¬(0xB ≤ op ∧ op ≤ 0xE) ∧ op ≠ 3) :
    (∃ i, zeroAbove lo w j = .ok i) ↔ ¬IllegalWord w := by
  obtain ⟨hreserved, hcalrd⟩ := hother
  have hzero := and_fieldMask_eq_zero_iff (show lo + (28 - lo) ≤ 32 by omega) w
  simp [IllegalWord, zeroAbove_eq_ok_iff, hop, hmask, hreserved, hcalrd, hzero]

/-- R65: decoding is total; what it refuses is what R66 calls illegal. The rows are numbered as in `encode_of_decode`. -/
theorem decode_isOk_iff (w : Word) : (∃ i, decode w = .ok i) ↔ ¬IllegalWord w := by
  rw [decode, opcodeField_toNat]
  split
  case h_1 hop | h_11 hop => simp [IllegalWord, hop, reservedZeroBits]
  case h_4 hop =>
    have hmask : reservedZeroBits 3 = fieldMask 5 23 := rfl
    have hzero := and_fieldMask_eq_zero_iff (show 5 + 23 ≤ 32 by decide) w
    simp [IllegalWord, calrdRow_eq_ok_iff, hop, hmask, hzero, Nat.lt_succ_iff]
  case h_13 =>
    have hw := w.isLt
    have hlt : opOf w < 16 := by rw [opOf]; omega
    have hreserved : 0xB ≤ opOf w ∧ opOf w ≤ 0xE := by grind
    simp [IllegalWord, hreserved]
  all_goals exact zeroAbove_isOk_iff _ ‹_› (by decide) rfl (by decide)

/-- Settles O3: the decoder refuses exactly the illegal words, and a refused word raises its fault through `accept`. -/
theorem illegalWordsRaiseIllegalCommand : Obligations.IllegalWordsRaiseIllegalCommand := by
  have hillegal (w : Word) : IllegalWord w ↔ ∀ i, decode w ≠ .ok i := by
    rw [← not_exists, decode_isOk_iff, not_not]
  refine ⟨hillegal, fun w s hw => ?_⟩
  cases hd : decode w with
  | ok i => exact absurd hd ((hillegal w).mp hw i)
  | error r =>
    rw [issueWord_error hd]
    refine ⟨fun hs => accept_running ((faulted_eq_false_iff s).mpr hs) _, fun hs => accept_faulted ?_ _⟩
    rwa [← faulted_eq_false_iff, Bool.not_eq_false] at hs

theorem opOf_of_decode {w : Word} {i : Instr} (h : decode w = .ok i) : opOf w = (Laws.OpcodeField.opcode i).toNat := by
  obtain ⟨-, rfl⟩ := encode_of_decode h
  rw [← opcodeField_toNat, opcode_encode]

/-- What O4 needs of each of the twelve rows: its mask covers OP and the reserved-zero bits, its value has bits in OP only, OP is not
reserved, and only the row of OP 3 is CALRD's. -/
theorem opcodeMap_rows : ∀ r ∈ opcodeMap,
    r.mask = fieldMask 28 4 ||| reservedZeroBits (opOf r.value) ∧ r.value &&& fieldMask 28 4 = r.value ∧
      r.value &&& reservedZeroBits (opOf r.value) = 0#32 ∧ ¬(0xB ≤ opOf r.value ∧ opOf r.value ≤ 0xE) ∧
      (r.mnemonic = "CALRD" ↔ opOf r.value = 3) := by
  decide

theorem mnemonicOf_eq_iff (i : Instr) : ∀ r ∈ opcodeMap,
    mnemonicOf i = r.mnemonic ↔ (Laws.OpcodeField.opcode i).toNat = opOf r.value := by
  cases i <;> simp only [mnemonicOf, Laws.OpcodeField.opcode] <;> decide

theorem opcodeMap_injective : ∀ r ∈ opcodeMap, ∀ q ∈ opcodeMap, opOf r.value = opOf q.value → r = q := by decide

/-- A word under two masks, where the value it is compared with has bits under the first only. -/
theorem and_or_eq_iff {a b v : Word} (ha : v &&& a = v) (hb : v &&& b = 0#32) (w : Word) :
    w &&& (a ||| b) = v ↔ w &&& a = v ∧ w &&& b = 0#32 := by
  have hleft : (a ||| b) &&& a = a := by ext; simp +contextual
  have hright : (a ||| b) &&& b = b := by ext; simp +contextual
  constructor
  · rintro rfl
    rw [BitVec.and_assoc, hleft] at ha
    rw [BitVec.and_assoc, hright] at hb
    exact ⟨ha, hb⟩
  · rintro ⟨hwa, hwb⟩
    rw [BitVec.and_or_distrib_left, hwa, hwb, BitVec.or_zero]

/-- A word matches a row exactly when it is legal and its OP is the row's. -/
theorem matches_iff {r : OpcodeRow} (hr : r ∈ opcodeMap) (w : Word) :
    r.Matches w ↔ opOf w = opOf r.value ∧ ¬IllegalWord w := by
  obtain ⟨hmask, hvalue, hzero, hreserved, hcalrd⟩ := opcodeMap_rows r hr
  have hop : w &&& fieldMask 28 4 = r.value ↔ opOf w = opOf r.value := by
    have h := and_fieldMask_eq_iff (show 28 + 4 ≤ 32 by decide) r.value w
    rwa [hvalue, ← field_toNat, ← field_toNat, opcodeField_toNat, opcodeField_toNat] at h
  rw [OpcodeRow.Matches, hmask, and_or_eq_iff hvalue hzero, hop, and_assoc, and_congr_right_iff]
  intro he
  simp [IllegalWord, he, hreserved, hcalrd, Nat.lt_succ_iff]

/-- Settles O4: matching a row and decoding as it both say that OP is the row's and the word is legal. -/
theorem opcodeMapDecides : Obligations.OpcodeMapDecides := by
  refine ⟨fun r hr w => ?_, fun r hr q hq w hrw hqw => ?_⟩
  · rw [matches_iff hr, ← decode_isOk_iff]
    constructor
    · rintro ⟨hop, i, hd⟩
      exact ⟨i, hd, (mnemonicOf_eq_iff i r hr).mpr ((opOf_of_decode hd).symm.trans hop)⟩
    · rintro ⟨i, hd, hm⟩
      exact ⟨(opOf_of_decode hd).trans ((mnemonicOf_eq_iff i r hr).mp hm), i, hd⟩
  · obtain ⟨hr', -⟩ := (matches_iff hr w).mp hrw
    obtain ⟨hq', -⟩ := (matches_iff hq w).mp hqw
    exact opcodeMap_injective r hr q hq (hr'.symm.trans hq')

end Sys2Proof.Proofs

/-! ## The assembler (30_encoding.md R68, R69)

Two things are said of a line: the operands R68 admits and the command it stands for. The assembler answers exactly the lines with such
operands, with the word of that command; `decode_encode` does the rest. -/

namespace Sys2Proof.Proofs

open Sys2Proof Sys2Proof.Machine Sys2Proof.Certificates

/-- The operands R68 does not refuse; a pseudo-instruction has no word of its own. -/
def OperandsInRange : AsmLine → Prop
  | .calwr idx byte => 0 ≤ idx ∧ idx ≤ 31 ∧ 0 ≤ byte ∧ byte ≤ 255
  | .calrd k => 0 ≤ k ∧ k ≤ 17
  | .compt adc => 0 ≤ adc ∧ adc ≤ 2 ^ 20 - 1
  | .compp adc => 0 ≤ adc ∧ adc ≤ 2 ^ 20 - 1
  | .comph adc => 0 ≤ adc ∧ adc ≤ 65535
  | .comptr msb lsb xlsb => 0 ≤ msb ∧ msb ≤ 255 ∧ 0 ≤ lsb ∧ lsb ≤ 255 ∧ 0 ≤ xlsb ∧ xlsb ≤ 255
  | .comppr msb lsb xlsb => 0 ≤ msb ∧ msb ≤ 255 ∧ 0 ≤ lsb ∧ lsb ≤ 255 ∧ 0 ≤ xlsb ∧ xlsb ≤ 255
  | .comphr msb lsb => 0 ≤ msb ∧ msb ≤ 255 ∧ 0 ≤ lsb ∧ lsb ≤ 255
  | .tfwr imm => -(2 ^ 27) ≤ imm ∧ imm ≤ 2 ^ 27 - 1
  | .nop => True
  | .calcommit => True
  | .calrdName _ => True
  | .reset => True
  | .calload _ => False
  | .measure _ _ _ _ _ _ _ _ => False
  | .clrstat => False

/-- The command a line stands for, its operands cut to their fields. -/
def commandOf : AsmLine → Option Instr
  | .nop => some (.nop 0)
  | .calwr idx byte => some (.calwr (BitVec.ofInt 5 idx) (BitVec.ofInt 8 byte))
  | .calcommit => some .calcommit
  | .calrd k => some (.calrd (BitVec.ofInt 5 k))
  | .calrdName name => some (.calrd (BitVec.ofNat 5 name.index))
  | .compt adc => some (.compt (BitVec.ofInt 20 adc))
  | .compp adc => some (.compp (BitVec.ofInt 20 adc))
  | .comph adc => some (.comph (BitVec.ofInt 16 adc))
  | .comptr msb lsb xlsb => some (.comptr (BitVec.ofInt 8 msb) (BitVec.ofInt 8 lsb) (BitVec.ofInt 8 xlsb))
  | .comppr msb lsb xlsb => some (.comppr (BitVec.ofInt 8 msb) (BitVec.ofInt 8 lsb) (BitVec.ofInt 8 xlsb))
  | .comphr msb lsb => some (.comphr (BitVec.ofInt 8 msb) (BitVec.ofInt 8 lsb))
  | .tfwr imm => some (.tfwr (BitVec.ofInt 28 imm))
  | .reset => some .reset
  | .calload _ => none
  | .measure _ _ _ _ _ _ _ _ => none
  | .clrstat => none

theorem coeffIndex_le (name : CoeffName) : name.index ≤ 17 := by
  cases name <;> decide

/-- The assembler refuses exactly the operands R68 names. -/
theorem assembleOne_eq_none_iff (l : AsmLine) : assembleOne l = none ↔ ¬OperandsInRange l := by
  cases l <;> simp [assembleOne, OperandsInRange, within, isByte, and_assoc]

theorem ofInt_eq_encode {i : Instr} {x : Int} (h : x = wordNumber i) : BitVec.ofInt 32 x = encode i := by
  rw [h, ← encode_toNat, BitVec.ofInt_natCast, BitVec.ofNat_toNat, BitVec.setWidth_eq]

/-- An admitted line gets the word of its command: R68's arithmetic is `wordNumber`. -/
theorem assembleOne_eq_encode {l : AsmLine} {i : Instr} (hr : OperandsInRange l) (hi : commandOf l = some i) :
    assembleOne l = some (encode i) := by
  cases l
  case nop | calcommit | reset =>
    cases hi
    rfl
  case calrdName name =>
    cases hi
    have hle := coeffIndex_le name
    refine congrArg some (ofInt_eq_encode ?_)
    simp only [wordNumber, BitVec.toNat_ofNat]
    omega
  case calload | measure | clrstat => cases hi
  all_goals
    cases hi
    simp only [OperandsInRange] at hr
    rw [assembleOne, if_pos (by simp [within, isByte]; omega)]
    refine congrArg some (ofInt_eq_encode ?_)
    simp only [wordNumber, BitVec.toNat_ofInt]
    omega

theorem commandOf_wellFormed {l : AsmLine} {i : Instr} (hr : OperandsInRange l) (hi : commandOf l = some i) :
    i.wellFormed = true := by
  cases l <;> cases hi
  case calrd k =>
    obtain ⟨h0, h17⟩ := hr
    simp only [Instr.wellFormed, BitVec.toNat_ofInt, decide_eq_true_eq]
    omega
  case calrdName name =>
    have hle := coeffIndex_le name
    simp only [Instr.wellFormed, BitVec.toNat_ofNat, decide_eq_true_eq]
    omega
  all_goals rfl

theorem decode_of_assembleOne {l : AsmLine} {w : Word} (h : assembleOne l = some w) :
    ∃ i, commandOf l = some i ∧ decode w = .ok i := by
  have hr : OperandsInRange l := by
    by_contra hr
    rw [(assembleOne_eq_none_iff l).mpr hr] at h
    cases h
  have hcommand : ∃ i, commandOf l = some i := by
    cases l
    case calload | measure | clrstat => cases hr
    all_goals exact ⟨_, rfl⟩
  obtain ⟨i, hi⟩ := hcommand
  rw [assembleOne_eq_encode hr hi] at h
  cases h
  exact ⟨i, hi, decode_encode (commandOf_wellFormed hr hi)⟩

/-- Settles O6: the line's command is `commandOf`, and each refusal is `OperandsInRange` at that line. -/
theorem assembledLineDecodes : Obligations.AssembledLineDecodes := by
  refine ⟨fun l w h => ?_, rfl, rfl, rfl, fun name => ?_, fun _ _ => assembleOne_eq_none_iff _,
    fun _ => assembleOne_eq_none_iff _, fun _ => assembleOne_eq_none_iff _, fun _ => assembleOne_eq_none_iff _,
    fun _ => assembleOne_eq_none_iff _, fun _ _ _ => assembleOne_eq_none_iff _, fun _ _ _ => assembleOne_eq_none_iff _,
    fun _ _ => assembleOne_eq_none_iff _, fun _ => assembleOne_eq_none_iff _⟩
  · obtain ⟨i, hi, hd⟩ := decode_of_assembleOne h
    refine ⟨i, hd, ?_⟩
    cases l <;> cases hi <;> rfl
  · rw [← BitVec.ofInt_natCast]
    rfl

/-! ### Pseudo-instructions -/

theorem assembleAll_of_forall₂ {ls : List AsmLine} {ws : List Word}
    (h : List.Forall₂ (fun l w => assembleOne l = some w) ls ws) : assembleAll ls = some ws := by
  induction h with
  | nil => rfl
  | cons hl _ ih => rw [assembleAll, hl, ih]

theorem ofInt_toNat {n : Nat} (x : BitVec n) : BitVec.ofInt n (x.toNat : Int) = x := by
  rw [BitVec.ofInt_natCast, BitVec.ofNat_toNat, BitVec.setWidth_eq]

theorem byte_inRange (b : Byte) : 0 ≤ (b.toNat : Int) ∧ (b.toNat : Int) ≤ 255 := by
  have hb := b.isLt
  omega

theorem assembleOne_calwr (idx : BitVec 5) (byte : Byte) :
    assembleOne (.calwr idx.toNat byte.toNat) = some (encode (.calwr idx byte)) := by
  have hidx := idx.isLt
  refine assembleOne_eq_encode ⟨by positivity, by omega, byte_inRange byte⟩ ?_
  simp only [commandOf, ofInt_toNat]

/-- On consecutive indices CALLOAD's expansion is one CALWR for each, in order (R69). -/
theorem calwrsFrom_map_range' (g : Nat → Int) (k n : Nat) :
    calwrsFrom k ((List.range' k n).map g) = (List.range' k n).map fun i => .calwr i (g i) := by
  induction n generalizing k with
  | zero => rfl
  | succ n ih => simp only [List.range'_succ, List.map_cons, calwrsFrom, ih]

/-- CALLOAD's expansion of an image: the same list with the staging indices as R41 numbers them. -/
theorem calwrsFrom_image (img : BitVec 5 → Byte) :
    calwrsFrom 0 (stagingIndices.map fun i => ((img i).toNat : Int)) =
      stagingIndices.map fun i => .calwr i.toNat (img i).toNat := by
  have h := calwrsFrom_map_range' (fun i => ((img (BitVec.ofNat 5 i)).toNat : Int)) 0 32
  rw [← List.range_eq_range'] at h
  simp only [stagingIndices, List.map_map, Function.comp_def, h]
  refine List.map_congr_left fun i hi => ?_
  rw [BitVec.toNat_ofNat, Nat.mod_eq_of_lt (List.mem_range.mp hi)]

/-- Settles O7, line by line of each expansion. -/
theorem pseudoInstructionsExpandAsListed : Obligations.PseudoInstructionsExpandAsListed := by
  refine ⟨fun img => ?_, fun pm pl px tm tl tx hm hl => ?_, rfl⟩
  · rw [assemble, expandLine, if_pos (by rfl), calwrsFrom_image]
    refine assembleAll_of_forall₂ (List.rel_append ?_ (.cons rfl .nil))
    rw [List.forall₂_map_left_iff, List.forall₂_map_right_iff, List.forall₂_same]
    exact fun i _ => assembleOne_calwr i (img i)
  · refine assembleAll_of_forall₂ (.cons (assembleOne_eq_encode ?rangeT ?commandT)
      (.cons (assembleOne_eq_encode ?rangeP ?commandP) (.cons (assembleOne_eq_encode ?rangeH ?commandH) .nil)))
    case rangeT | rangeP | rangeH => simp only [OperandsInRange, byte_inRange, and_self]
    case commandT | commandP | commandH => simp only [commandOf, ofInt_toNat]

end Sys2Proof.Proofs

/-! ## Every step answers (30_encoding.md R65, 60_exceptions.md R131) -/

namespace Sys2Proof.Proofs

open Sys2Proof Sys2Proof.Machine Sys2Proof.Certificates

theorem issueWord_answers (w : Word) (s : State) : ∃ t, issueWord w s = .next t := by
  cases hd : decode w with
  | ok i =>
    obtain ⟨t, ht, -⟩ := exec_answers s i
    exact ⟨t, (issueWord_ok hd s).trans ht⟩
  | error r => exact ⟨_, issueWord_error hd s⟩

/-- Settles O39, by the host's next event. -/
theorem everyStepAnswersNext : Obligations.EveryStepAnswersNext := by
  intro s
  cases hhost : s.host with
  | nil => exact ⟨s, step_idle hhost⟩
  | cons e rest =>
    cases e with
    | command w =>
      rw [step_command hhost]
      exact issueWord_answers w _
    | powerOn => exact ⟨_, step_powerOn hhost⟩

/-- Settles O37, from what a step does with a command word and what a word that decodes does. -/
theorem stepRunsTheDecodedCommand : Obligations.StepRunsTheDecodedCommand := by
  intro s w rest hhost
  exact ⟨step_command hhost, fun i hd => (step_command hhost).trans (issueWord_ok hd _)⟩

end Sys2Proof.Proofs

/-! ## Staging an image (40_calibration.md R80 to R82, 30_encoding.md R69)

`stageAll` is what a sequence of CALWRs leaves; `issueAll_calwrs_append` ties it to `exec`, and three lemmas read it: at an index of
STG, at a bit of WMASK, and everywhere else. -/

namespace Sys2Proof.Proofs

open Sys2Proof Sys2Proof.Machine Sys2Proof.Certificates

/-- The state CALWRs of these index and byte pairs leave, in order. -/
def stageAll (ws : List (BitVec 5 × Byte)) (s : State) : State := ws.foldl (fun s p => s.stageByte p.1 p.2) s

theorem stageAll_cons (p : BitVec 5 × Byte) (ws : List (BitVec 5 × Byte)) (s : State) :
    stageAll (p :: ws) s = stageAll ws (s.stageByte p.1 p.2) := rfl

theorem lastWritten_cons (p : BitVec 5 × Byte) (ws : List (BitVec 5 × Byte)) (i : BitVec 5) (old : Byte) :
    lastWritten (p :: ws) i old = lastWritten ws i (if p.1 = i then p.2 else old) := rfl

/-- CALWR writes nothing but STG and WMASK (R80). -/
theorem stageAll_frame (ws : List (BitVec 5 × Byte)) (s : State) :
    stageAll ws s = { s with stg := (stageAll ws s).stg, wmask := (stageAll ws s).wmask } := by
  induction ws generalizing s with
  | nil => rfl
  | cons p ws ih =>
    rw [stageAll_cons, ih]
    rfl

theorem read_stageAll (ws : List (BitVec 5 × Byte)) (s : State) (i : BitVec 5) :
    (stageAll ws s).stg.read i = lastWritten ws i (s.stg.read i) := by
  induction ws generalizing s with
  | nil => rfl
  | cons p ws ih =>
    rw [stageAll_cons, ih, lastWritten_cons, State.stageByte_stg]
    split
    · next h => rw [← h, Memory.read_write_same]
    · next h => rw [Memory.read_write_other _ _ (Ne.symm h)]

theorem wmask_stageAll (ws : List (BitVec 5 × Byte)) (s : State) (i : BitVec 5) :
    (stageAll ws s).wmask.getLsbD i.toNat = true ↔ s.wmask.getLsbD i.toNat = true ∨ ∃ p ∈ ws, p.1 = i := by
  induction ws generalizing s with
  | nil => simp [stageAll]
  | cons p ws ih =>
    rw [stageAll_cons, ih, wmask_stageByte, Bool.or_eq_true, decide_eq_true_iff, or_assoc, eq_comm (a := i),
      List.exists_mem_cons_iff]

theorem issueAll_calwrs_append {s : State} (hs : Running s) (ws : List (BitVec 5 × Byte)) (is : List Instr) :
    issueAll ((ws.map fun p => .calwr p.1 p.2) ++ is) s = issueAll is (stageAll ws s) := by
  induction ws generalizing s with
  | nil => rfl
  | cons p ws ih =>
    have hp : exec (.calwr p.1 p.2) s = .next (s.stageByte p.1 p.2) := by
      rw [exec_calwr]
      exact accept_running ((faulted_eq_false_iff s).mpr hs) _
    rw [List.map_cons, List.cons_append, issueAll_cons hp, stageAll_cons]
    exact ih hs

/-! ### A whole image -/

/-- The bytes of an image with the indices CALLOAD writes them at (R69). -/
def imagePairs (img : BitVec 5 → Byte) : List (BitVec 5 × Byte) := stagingIndices.map fun i => (i, img i)

theorem mem_stagingIndices : ∀ i : BitVec 5, i ∈ stagingIndices := by decide

theorem calload_eq (img : BitVec 5 → Byte) :
    calload img = (imagePairs img).map (fun p => .calwr p.1 p.2) ++ [.calcommit] := by
  rw [calload, imagePairs, List.map_map]
  rfl

/-- Where every byte written at an index is the image's, the last one written there is. -/
theorem lastWritten_map_image (img : BitVec 5 → Byte) (is : List (BitVec 5)) (i : BitVec 5) (old : Byte) :
    lastWritten (is.map fun i => (i, img i)) i old = if i ∈ is then img i else old := by
  induction is generalizing old with
  | nil => rfl
  | cons j is ih =>
    rw [List.map_cons, lastWritten_cons, ih]
    by_cases hj : j = i
    · simp [hj]
    · simp [hj, Ne.symm hj]

/-- Once the image is staged every byte of STG is the image's. -/
theorem read_stageImage (img : BitVec 5 → Byte) (s : State) (i : BitVec 5) :
    (stageAll (imagePairs img) s).stg.read i = img i := by
  rw [read_stageAll, imagePairs, lastWritten_map_image, if_pos (mem_stagingIndices i)]

/-- Once the image is staged every WMASK bit is set, so CALCOMMIT's guard passes (R82). -/
theorem stgf_stageImage (img : BitVec 5 → Byte) (s : State) : (stageAll (imagePairs img) s).stgf = true := by
  rw [State.stgf_iff]
  refine BitVec.eq_of_getLsbD_eq fun k hk => ?_
  have hwritten : ∃ p ∈ imagePairs img, p.1 = BitVec.ofNat 5 k :=
    ⟨_, List.mem_map_of_mem (mem_stagingIndices (BitVec.ofNat 5 k)), rfl⟩
  have hbit := (wmask_stageAll (imagePairs img) s (BitVec.ofNat 5 k)).mpr (.inr hwritten)
  rw [BitVec.toNat_ofNat, Nat.mod_eq_of_lt hk] at hbit
  rw [hbit, show (0xFFFFFFFF : BitVec 32) = BitVec.allOnes 32 from rfl, BitVec.getLsbD_allOnes, decide_eq_true hk]

/-- Settles O49: the CALWRs stage the image, CALCOMMIT's guard passes, and what it unpacks is the image. -/
theorem calloadLoadsTheImage : Obligations.CalloadLoadsTheImage := by
  intro img s hs
  have hstaged : issueAll (calload img) s = issueAll [.calcommit] (stageAll (imagePairs img) s) := by
    rw [calload_eq, issueAll_calwrs_append hs]
  have hread : (stageAll (imagePairs img) s).stg.read = img := funext (read_stageImage img s)
  have hstgf := stgf_stageImage img s
  have hframe := stageAll_frame (imagePairs img) s
  generalize stageAll (imagePairs img) s = t at hstaged hread hstgf hframe
  have hrunning : t.faulted = false := by
    rw [hframe]
    exact (faulted_eq_false_iff s).mpr hs
  have hcommit : exec .calcommit t = .next (t.commit (unpack Config.h45SignExtend img)) := by
    rw [exec_calcommit, accept_running hrunning, if_pos hstgf, hread]
  refine ⟨_, hstaged.trans (issueAll_cons hcommit []), rfl, congrFun hread, ?_⟩
  rw [hframe]
  rfl

end Sys2Proof.Proofs

/-! ## The calibration commands (40_calibration.md R80 to R86)

What the unpacker computes is said once per kind of field, as a number: `littleEndian_toNat` and `littleEndian_toInt` for the 16-bit
fields, `packed12_toInt` for H4 and H5, `toInt_eq_signed8` for a signed byte. -/

namespace Sys2Proof.Proofs

open Sys2Proof Sys2Proof.Machine Sys2Proof.Certificates

/-- A command is accepted while STATUS.FAULT = 0 (60_exceptions.md R136). -/
theorem accept_of_running {s : State} (hs : Running s) (body : State → State) : accept s body = .next (body s) :=
  accept_running ((faulted_eq_false_iff s).mpr hs) body

/-! ### CALWR -/

/-- Settles O12: CALWR's effect is `stageByte`, and an index below 32 is a 5-bit index. -/
theorem calwrStagesOneByte : Obligations.CalwrStagesOneByte := by
  intro idx byte s hs
  have hexec : exec (.calwr idx byte) s = .next (s.stageByte idx byte) := by
    rw [exec_calwr, accept_of_running hs]
  refine ⟨_, hexec, Memory.read_write_same _ _ _, fun a ha => Memory.read_write_other _ _ ha, fun i hi => ?_, rfl⟩
  obtain ⟨j, rfl⟩ : ∃ j : BitVec 5, j.toNat = i := ⟨BitVec.ofNatLT i hi, BitVec.toNat_ofNatLT _ _⟩
  simp only [wmask_stageByte, BitVec.toNat_inj]

/-- Settles O48: the CALWRs leave `stageAll`, which its lemmas read at an index, at a WMASK bit and everywhere else. -/
theorem stagingInAnyOrder : Obligations.StagingInAnyOrder := by
  intro ws s hs
  have hrun : issueAll (ws.map fun p => .calwr p.1 p.2) s = .next (stageAll ws s) := by
    have happend := issueAll_calwrs_append hs ws []
    rwa [List.append_nil] at happend
  exact ⟨_, hrun, read_stageAll ws s, wmask_stageAll ws s, stageAll_frame ws s⟩

/-! ### CALCOMMIT -/

/-- Two bytes never exceed 16 bits, so the sum of R42 does not wrap. -/
theorem littleEndian_toNat (img : BitVec 5 → Byte) (i : BitVec 5) : ((littleEndian img i).toNat : Int) = field img i := by
  have hlow := (img i).isLt
  have hhigh := (img (i + 1)).isLt
  simp only [littleEndian, field, BitVec.toNat_add, BitVec.toNat_mul, BitVec.toNat_setWidth, BitVec.zeroExtend_eq_setWidth,
    BitVec.reduceToNat]
  omega

/-- A 16-bit field read as s16 (R83). -/
theorem littleEndian_toInt (img : BitVec 5 → Byte) (i : BitVec 5) : (littleEndian img i).toInt = signed16 (field img i) := by
  rw [← littleEndian_toNat, signed16, BitVec.toInt_eq_toNat_cond]
  split <;> split <;> omega

theorem toInt_eq_signed8 (b : Byte) : b.toInt = signed8 b := by
  rw [signed8, BitVec.toInt_eq_toNat_cond]
  split <;> split <;> omega

theorem unpack_words (sx : Bool) (img : BitVec 5 → Byte) : UnpacksWords img (unpack sx img) := by
  constructor
  case t1 | p1 => exact littleEndian_toNat img _
  all_goals exact littleEndian_toInt img _

theorem unpack_nibbles (sx : Bool) (img : BitVec 5 → Byte) : UnpacksNibbles sx img (unpack sx img) where
  h4 := by rw [unpack, packed12_toInt, toInt_eq_signed8, lowNibble_toNat]
  h5 := by rw [unpack, packed12_toInt, toInt_eq_signed8, highNibble_toNat]

theorem unpack_bytes (sx : Bool) (img : BitVec 5 → Byte) : UnpacksBytes img (unpack sx img) where
  h1 := rfl
  h2 := littleEndian_toInt img 25
  h3 := rfl
  h6 := toInt_eq_signed8 (img 31)

/-- Settles O13: with every byte staged CALCOMMIT commits `unpack` of STG, whose fields are R83's, R84's and R85's. -/
theorem calcommitUnpacksTheImage : Obligations.CalcommitUnpacksTheImage := by
  intro s hs hw
  have hexec : exec .calcommit s = .next (s.commit (unpack Config.h45SignExtend s.stg.read)) := by
    rw [exec_calcommit, accept_of_running hs, if_pos ((State.stgf_iff s).mpr hw)]
  exact ⟨_, hexec, unpack_words _ _, unpack_nibbles _ _, unpack_bytes _ _, rfl⟩

/-- A byte reads the same as s8 and as u8 exactly when its top bit is clear. -/
theorem byte_toInt_eq_toNat_iff (b : Byte) : b.toInt = b.toNat ↔ b.getLsbD 7 = false := by
  have hmsb : b.msb = b.getLsbD 7 := BitVec.msb_eq_getLsbD_last b
  rw [← hmsb, BitVec.toInt_eq_msb_cond]
  split <;> simp_all

/-- The two readings of a packed field agree exactly when its high byte has its top bit clear (R84). -/
theorem packed12_readings_eq_iff (high : Byte) (nibble : BitVec 4) :
    packed12 true high nibble = packed12 false high nibble ↔ high.getLsbD 7 = false := by
  rw [← BitVec.toInt_inj, packed12_toInt, packed12_toInt, ← byte_toInt_eq_toNat_iff, if_pos rfl, if_neg Bool.false_ne_true]
  omega

/-- H45_SIGN_EXTEND reaches H4 and H5 only (R84). -/
theorem unpack_readings_eq_iff (img : BitVec 5 → Byte) :
    unpack true img = unpack false img ↔ (img 28).getLsbD 7 = false ∧ (img 30).getLsbD 7 = false := by
  simp only [unpack, Cal.mk.injEq, packed12_readings_eq_iff, true_and, and_true]

/-- Settles O15: the values are `unpack_nibbles`, the ranges `packed12_range`, and the readings differ when one of the two fields'
readings does. -/
theorem packedFieldsAreTwelveBits : Obligations.PackedFieldsAreTwelveBits := by
  intro img
  refine ⟨fun sx => unpack_nibbles sx img, packed12_range true _ _, packed12_range true _ _, packed12_range false _ _,
    packed12_range false _ _, ?_⟩
  rw [ne_eq, unpack_readings_eq_iff, Classical.not_and_iff_not_or_not, Bool.not_eq_false, Bool.not_eq_false]

/-! ### CALRD -/

/-- Each index up to 17 names the coefficient that has it (10_state.md R21). -/
theorem ofIndex_of_le {k : Nat} (h : k ≤ 17) : ∃ name, CoeffName.ofIndex k = some name ∧ name.index = k := by
  interval_cases k <;> exact ⟨_, rfl, rfl⟩

/-- With a calibration the CALV guard passes (60_exceptions.md R133). -/
theorem withCalibration_of_calv {s : State} (h : s.status.calv = true) (body : State → State) :
    withCalibration s body = body s := if_pos h

theorem zeroExtend_toInt {n w : Nat} (hw : w < n) (v : BitVec w) : (v.zeroExtend n).toInt = v.toNat :=
  congrArg Checked.val (unsignedCoeff_eq hw v)

/-- Extended by its type a coefficient keeps its value (R21, R86): T1, P1, H1 and H3 by zeros, the others by their sign. -/
theorem extended_toInt (c : Cal) (name : CoeffName) : (c.extended name).toInt = coeffValue c name.index := by
  cases name
  case t1 | p1 | h1 | h3 => exact zeroExtend_toInt (by decide) _
  all_goals exact BitVec.toInt_signExtend_of_le (by decide)

/-- Settles O17: the index names a coefficient, CALV = 1 passes the guard, and the extension keeps the value. -/
theorem calrdReadsTheCoefficient : Obligations.CalrdReadsTheCoefficient := by
  intro k s hs hk hcalv
  obtain ⟨name, hname, hindex⟩ := ofIndex_of_le hk
  have hexec : exec (.calrd k) s = .next (s.writeOut0 (s.cal.extended name)) := by
    rw [exec_calrd, accept_of_running hs]
    simp only [hname, withCalibration_of_calv hcalv]
  refine ⟨_, hexec, ?_, rfl⟩
  rw [← hindex]
  exact extended_toInt s.cal name

/-! ### The example words -/

/-- Settles O5, by running the decoder on each of the twelve words. -/
theorem specExampleWordsDecode : Obligations.SpecExampleWordsDecode := by
  unfold Obligations.SpecExampleWordsDecode
  decide

end Sys2Proof.Proofs

/-! ## The compensation commands (41_compensation.md R90, R91, R97, R100, R103, R106, R110)

What each compute command leaves once its guards have passed, stated on the operands the spec names: the code as an unsigned number
and T_FINE as the integer its stage reads. -/

namespace Sys2Proof.Proofs

open Sys2Proof Sys2Proof.Machine Sys2Proof.Certificates

/-- With a fine temperature the TFV guard passes (60_exceptions.md R134). -/
theorem withFineTemperature_of_tfv {s : State} (h : s.status.tfv = true) (body : State → State) :
    withFineTemperature s body = body s := if_pos h

theorem fine32_eq (tFine : BitVec 64) : fine32 tFine = exact (tFine.setWidth 32).toInt := by
  rw [fine32, ← BitVec.setWidth_eq_extractLsb' (by norm_num)]

/-! ### Raw forms -/

theorem adc20_eq_of_toNat {msb lsb xlsb : Byte} {adc : BitVec 20}
    (h : adc.toNat = msb.toNat * 4096 + lsb.toNat * 16 + xlsb.toNat / 16) : adc20 msb lsb xlsb = adc :=
  BitVec.eq_of_toNat_eq ((rawCodesAssembleMsbFirst.1 msb lsb xlsb).trans h.symm)

theorem adc16_eq_of_toNat {msb lsb : Byte} {adc : BitVec 16} (h : adc.toNat = msb.toNat * 256 + lsb.toNat) :
    adc16 msb lsb = adc :=
  BitVec.eq_of_toNat_eq ((rawCodesAssembleMsbFirst.2 msb lsb).trans h.symm)

theorem exec_comptr_eq_compt (msb lsb xlsb : Byte) (s : State) :
    exec (.comptr msb lsb xlsb) s = exec (.compt (adc20 msb lsb xlsb)) s := rfl

theorem exec_comppr_eq_compp (msb lsb xlsb : Byte) (s : State) :
    exec (.comppr msb lsb xlsb) s = exec (.compp (adc20 msb lsb xlsb)) s := rfl

theorem exec_comphr_eq_comph (msb lsb : Byte) (s : State) : exec (.comphr msb lsb) s = exec (.comph (adc16 msb lsb)) s := rfl

/-- Settles O11: R45's arithmetic determines the code, and a raw form is its command on that code. -/
theorem rawFormsRunTheCodeForm : Obligations.RawFormsRunTheCodeForm := by
  refine ⟨fun m l x adc s h => ?_, fun m l adc s h => ?_⟩
  · rw [exec_comptr_eq_compt, exec_comppr_eq_compp, adc20_eq_of_toNat h]
    exact ⟨rfl, rfl⟩
  · rw [exec_comphr_eq_comph, adc16_eq_of_toNat h]

/-! ### Temperature -/

theorem exec_compt_calibrated {s : State} (hs : Running s) (hcalv : s.status.calv = true) (adc : BitVec 20) :
    exec (.compt adc) s = .next (s.writeTemperature (sext 64 (compT s.cal (exact adc.toNat)).t)
      (sext 64 (compT s.cal (exact adc.toNat)).tf) (compT s.cal (exact adc.toNat)).ovf) := by
  rw [exec_compt, accept_of_running hs, temperature_calibrated hcalv, code_eq (by norm_num)]

/-- An s32 result in a 64-bit register reads back as itself (00_scope.md R8). -/
theorem sext_toInt_of_fits32 {x : Int} (h : fitsN 32 x = true) : (sext 64 x).toInt = x :=
  sext_toInt (by norm_num) (fits64_of_fits32 h)

/-- Settles O18: the command leaves `writeTemperature` of the stage's results, which are s32. -/
theorem temperatureCommandsComplete : Obligations.TemperatureCommandsComplete := by
  intro adc s hs hcalv
  have hexec := exec_compt_calibrated hs hcalv adc
  have ht := compT_t_fits s.cal (exact adc.toNat)
  have htf := compT_tf_fits s.cal (exact adc.toNat)
  refine ⟨⟨_, hexec, sext_fine_range ht, sext_fine_range htf, sext_toInt_of_fits32 ht, sext_toInt_of_fits32 htf, rfl⟩, ?_⟩
  rintro msb lsb xlsb rfl
  exact ⟨_, (exec_comptr_eq_compt msb lsb xlsb s).trans hexec, hexec⟩

/-! ### Pressure -/

/-- What a pressure command leaves, by how its stage ends (R99, R100, R102). -/
def pressureOutcome (s : State) : PressureResult → State
  | .zeroDenominator ovf => s.writePressure 0 true ovf
  | .divOverflow => s.raise .divOverflow
  | .value p ovf => s.writePressure (sext 64 p) false ovf

theorem exec_compp_ready {s : State} (hs : Running s) (hcalv : s.status.calv = true) (htfv : s.status.tfv = true)
    (adc : BitVec 20) {r : PressureResult} (hr : compP s.cal (exact adc.toNat) (exact s.tFine.toInt) = r) :
    exec (.compp adc) s = .next (pressureOutcome s r) := by
  rw [exec_compp, accept_of_running hs, pressure, withCalibration_of_calv hcalv, withFineTemperature_of_tfv htfv,
    code_eq (by norm_num), ← hr]
  rfl

/-- The quotient of step P-8 (R98), where it does not overflow. -/
def pressQuotient (c : Cal) (adc tf : Checked) : Checked :=
  ⟨(pressDividend c adc tf).val.tdiv (pressDenominator c tf).val, (pressDividend c adc tf).ovf || (pressDenominator c tf).ovf⟩

/-- The three ways the pressure stage ends, each with its condition on the operands of step P-8 (R98, R99, R102). -/
theorem compP_cases (c : Cal) (adc tf : Checked) :
    ((pressDenominator c tf).val = 0 ∧
      compP c adc tf = .zeroDenominator ((pressVar2 c tf).ovf || (pressDenominator c tf).ovf)) ∨
    (((pressDividend c adc tf).val = -(2 ^ 63) ∧ (pressDenominator c tf).val = -1) ∧ compP c adc tf = .divOverflow) ∨
    ((pressDenominator c tf).val ≠ 0 ∧ ¬((pressDividend c adc tf).val = -(2 ^ 63) ∧ (pressDenominator c tf).val = -1) ∧
      compP c adc tf =
        .value (pressFinish c (pressQuotient c adc tf)).val (pressFinish c (pressQuotient c adc tf)).ovf) := by
  by_cases hden : (pressDenominator c tf).val = 0
  · exact .inl ⟨hden, compP_zero hden⟩
  by_cases hdiv : (pressDividend c adc tf).val = -(2 ^ 63) ∧ (pressDenominator c tf).val = -1
  · exact .inr (.inl ⟨hdiv, by rw [compP_nonzero hden, tdivN, if_pos hdiv]⟩)
  · exact .inr (.inr ⟨hden, hdiv, by rw [compP_nonzero hden, tdivN, if_neg hdiv]; rfl⟩)

theorem compP_eq_divOverflow_iff (c : Cal) (adc tf : Checked) :
    compP c adc tf = .divOverflow ↔ (pressDividend c adc tf).val = -(2 ^ 63) ∧ (pressDenominator c tf).val = -1 := by
  rcases compP_cases c adc tf with ⟨hden, he⟩ | ⟨hdiv, he⟩ | ⟨-, hno, he⟩ <;> rw [he]
  · exact ⟨nofun, fun ⟨_, hone⟩ => by omega⟩
  · exact iff_of_true rfl hdiv
  · exact iff_of_false nofun hno

theorem compP_eq_zeroDenominator {c : Cal} {adc tf : Checked} {ovf : Bool} (h : compP c adc tf = .zeroDenominator ovf) :
    (pressDenominator c tf).val = 0 ∧ ((pressVar2 c tf).ovf || (pressDenominator c tf).ovf) = ovf := by
  rcases compP_cases c adc tf with ⟨hden, he⟩ | ⟨-, he⟩ | ⟨-, -, he⟩ <;> rw [he] at h <;> cases h
  exact ⟨hden, rfl⟩

theorem compP_eq_value {c : Cal} {adc tf : Checked} {p : Int} {ovf : Bool} (h : compP c adc tf = .value p ovf) :
    (pressDenominator c tf).val ≠ 0 ∧ (pressFinish c (pressQuotient c adc tf)).val = p ∧
      (pressFinish c (pressQuotient c adc tf)).ovf = ovf := by
  rcases compP_cases c adc tf with ⟨-, he⟩ | ⟨-, he⟩ | ⟨hden, -, he⟩ <;> rw [he] at h <;> cases h
  exact ⟨hden, rfl, rfl⟩

theorem sext_compP_toInt {c : Cal} {adc tf : Checked} {p : Int} {ovf : Bool} (h : compP c adc tf = .value p ovf) :
    (sext 64 p).toInt = p := by
  obtain ⟨-, rfl, -⟩ := compP_eq_value h
  exact sext_toInt (by norm_num) (pressFinish_fits _ _)

/-- Settles O20: without the overflow the stage returns a value, an s64, or ends on the sentinel. -/
theorem pressureCommandsComplete : Obligations.PressureCommandsComplete := by
  intro adc s hs hcalv htfv hno
  constructor
  · cases hr : compP s.cal (exact adc.toNat) (exact s.tFine.toInt) with
    | divOverflow => exact absurd ((compP_eq_divOverflow_iff _ _ _).mp hr) hno
    | zeroDenominator ovf =>
      exact ⟨_, true, ovf, exec_compp_ready hs hcalv htfv adc hr, .inr ⟨rfl, rfl, rfl⟩, rfl⟩
    | value p ovf =>
      have hout : (pressureOutcome s (.value p ovf)).out0.toInt = p := sext_compP_toInt hr
      exact ⟨_, false, ovf, exec_compp_ready hs hcalv htfv adc hr, .inl ⟨by rw [hout], rfl⟩, rfl⟩
  · rintro msb lsb xlsb rfl
    have hexec := exec_compp_ready hs hcalv htfv (adc20 msb lsb xlsb) rfl
    exact ⟨_, (exec_comppr_eq_compp msb lsb xlsb s).trans hexec, hexec⟩

/-- Settles O22: a denominator of 0 is the stage's first case. -/
theorem zeroDenominatorGivesTheSentinel : Obligations.ZeroDenominatorGivesTheSentinel := by
  intro adc s hs hcalv htfv hden
  exact exec_compp_ready hs hcalv htfv adc (compP_zero hden)

/-- Settles O23: the stage's own DivOverflow is the only outcome that leaves a running SCP faulted. -/
theorem divOverflowExactlyMinByMinusOne : Obligations.DivOverflowExactlyMinByMinusOne := by
  intro adc s t hs hcalv htfv h
  rw [Overflows, ← compP_eq_divOverflow_iff]
  cases hr : compP s.cal (exact adc.toNat) (exact s.tFine.toInt) <;>
    rw [exec_compp_ready hs hcalv htfv adc hr] at h <;> cases h
  case divOverflow => exact ⟨iff_of_true rfl rfl, fun _ => rfl⟩
  case zeroDenominator | value => simp [pressureOutcome, hs]

/-! ### Humidity -/

theorem exec_comph_ready {s : State} (hs : Running s) (hcalv : s.status.calv = true) (htfv : s.status.tfv = true)
    (adc : BitVec 16) {r : HumidityResult}
    (hr : compH s.cal (exact adc.toNat) (exact (s.tFine.setWidth 32).toInt) = r) :
    exec (.comph adc) s = .next (s.writeHumidity (sext 64 r.h) r.hclo r.hchi r.ovf) := by
  rw [exec_comph, accept_of_running hs, humidity_ready hcalv htfv, code_eq (by norm_num), fine32_eq, hr]

theorem sext_compH_toInt (c : Cal) (adc tf : Checked) : (sext 64 (compH c adc tf).h).toInt = (compH c adc tf).h := by
  obtain ⟨hlow, hhigh⟩ := compH_h_bounds c adc tf
  exact sext_toInt_of_fits32 ((fitsN_iff 32 _).mpr ⟨by omega, by omega⟩)

/-- Settles O24: the command leaves `writeHumidity` of the stage's results, and the register holds H whole. -/
theorem humidityCommandsComplete : Obligations.HumidityCommandsComplete := by
  intro adc s hs hcalv htfv
  have hexec := exec_comph_ready hs hcalv htfv adc rfl
  refine ⟨⟨_, _, hexec, rfl, sext_compH_toInt _ _ _, rfl⟩, ?_⟩
  rintro msb lsb rfl
  exact ⟨_, (exec_comphr_eq_comph msb lsb s).trans hexec, hexec⟩

/-- Settles O26: the flags compare the accumulator with the clamp's ends, and the shift divides the clamped value. -/
theorem clampRecordsItsDirection : Obligations.ClampRecordsItsDirection := by
  intro c adc tf
  simp only [compH_hclo, compH_hchi, compH_h, decide_eq_true_eq, decide_eq_false_iff_not, true_and]
  refine ⟨fun hlow => ?_, fun hhigh => ?_, fun hlow hhigh => ?_⟩ <;> omega

end Sys2Proof.Proofs

/-! ## The stages without overflow (00_scope.md R9; 41_compensation.md R92, R98, R104)

While `ovf` stays false every intermediate value is the exact integer of its step (`Tracks`), so each stage is read off term by term
in the order of the spec's steps. -/

namespace Sys2Proof.Proofs

open Sys2Proof Sys2Proof.Machine Sys2Proof.Certificates

section
variable (c : Cal) {adc tf : Checked} {x y : Int}

/-! ### Temperature (R92) -/

theorem tempFine_tracks (h : Tracks adc x) : Tracks (tempFine c adc) (exactFine c x) := by
  have pos : 0 < 32 := by norm_num
  have ht1 : Tracks (unsignedCoeff 32 c.t1) c.t1.toNat := tracks_unsigned (by norm_num) _
  have ht2 : Tracks (signedCoeff 32 c.t2) c.t2.toInt := tracks_signed (by norm_num) _
  have ht3 : Tracks (signedCoeff 32 c.t3) c.t3.toInt := tracks_signed (by norm_num) _
  have hd := (h.asr 4).sub pos ht1
  have hvar1 : Tracks (tempVar1 c adc) _ := (((h.asr 3).sub pos (ht1.shl pos 1)).mul pos ht2).asr 11
  have hvar2 : Tracks (tempVar2 c adc) _ := (((hd.mul pos hd).asr 12).mul pos ht3).asr 14
  exact hvar1.add pos hvar2

theorem tempCentidegrees_tracks (h : Tracks tf x) : Tracks (tempCentidegrees tf) (exactCentidegrees x) := by
  have pos : 0 < 32 := by norm_num
  exact ((h.mul pos (tracks_exact 5)).add pos (tracks_exact 128)).asr 8

/-! ### Pressure (R98) -/

theorem pressVar_tracks (h : Tracks tf x) : Tracks (pressVar tf) (x - 128000) :=
  h.sub (by norm_num) (tracks_exact 128000)

theorem pressDenominator_tracks (h : Tracks tf x) : Tracks (pressDenominator c tf) (exactDenominator c x) := by
  have pos : 0 < 64 := by norm_num
  have hp1 : Tracks (unsignedCoeff 64 c.p1) c.p1.toNat := tracks_unsigned (by norm_num) _
  have hp2 : Tracks (signedCoeff 64 c.p2) c.p2.toInt := tracks_signed (by norm_num) _
  have hp3 : Tracks (signedCoeff 64 c.p3) c.p3.toInt := tracks_signed (by norm_num) _
  have hv := pressVar_tracks h
  have hvar1 : Tracks (pressVar1 c tf) _ := (((hv.mul pos hv).mul pos hp3).asr 8).add pos ((hv.mul pos hp2).shl pos 12)
  exact (((tracks_exact (2 ^ 47)).add pos hvar1).mul pos hp1).asr 33

theorem pressDividend_tracks (hadc : Tracks adc x) (h : Tracks tf y) :
    Tracks (pressDividend c adc tf) (exactDividend c x y) := by
  have pos : 0 < 64 := by norm_num
  have hp4 : Tracks (signedCoeff 64 c.p4) c.p4.toInt := tracks_signed (by norm_num) _
  have hp5 : Tracks (signedCoeff 64 c.p5) c.p5.toInt := tracks_signed (by norm_num) _
  have hp6 : Tracks (signedCoeff 64 c.p6) c.p6.toInt := tracks_signed (by norm_num) _
  have hv := pressVar_tracks h
  have hvar2 : Tracks (pressVar2 c tf) _ :=
    (((hv.mul pos hv).mul pos hp6).add pos ((hv.mul pos hp5).shl pos 17)).add pos (hp4.shl pos 35)
  exact ((((tracks_exact 1048576).sub pos hadc).shl pos 31).sub pos hvar2).mul pos (tracks_exact 3125)

/-- Truncating division is exact on exact operands; `tdivN` carries the flags of both. -/
theorem pressQuotient_tracks (hadc : Tracks adc x) (h : Tracks tf y) :
    Tracks (pressQuotient c adc tf) ((exactDividend c x y).tdiv (exactDenominator c y)) := by
  intro hovf
  obtain ⟨hdividend, hdenominator⟩ := Bool.or_eq_false_iff.mp hovf
  rw [pressQuotient, pressDividend_tracks c hadc h hdividend, pressDenominator_tracks c h hdenominator]

/-- Step P-9 keeps the flag of the quotient it starts from. -/
theorem ovf_of_pressFinish {p : Checked} (h : (pressFinish c p).ovf = false) : p.ovf = false := by
  have pos : 0 < 64 := by norm_num
  obtain ⟨hscaled, -, -⟩ := addN_exact pos h
  obtain ⟨hsum, -, -⟩ := addN_exact pos hscaled
  obtain ⟨hp, -, -⟩ := addN_exact pos hsum
  exact hp

theorem pressFinish_tracks {p : Checked} (h : Tracks p x) : Tracks (pressFinish c p) (exactPressure c x) := by
  have pos : 0 < 64 := by norm_num
  have hp7 : Tracks (signedCoeff 64 c.p7) c.p7.toInt := tracks_signed (by norm_num) _
  have hp8 : Tracks (signedCoeff 64 c.p8) c.p8.toInt := tracks_signed (by norm_num) _
  have hp9 : Tracks (signedCoeff 64 c.p9) c.p9.toInt := tracks_signed (by norm_num) _
  have hvar1 := ((hp9.mul pos (h.asr 13)).mul pos (h.asr 13)).asr 25
  have hvar2 := (hp8.mul pos h).asr 19
  exact ((((h.add pos hvar1).add pos hvar2).asr 8).add pos (hp7.shl pos 4))

/-! ### Humidity (R104) -/

theorem humVar_tracks (h : Tracks tf x) : Tracks (humVar tf) (x - 76800) :=
  h.sub (by norm_num) (tracks_exact 76800)

theorem humAccumulator_tracks (hadc : Tracks adc x) (h : Tracks tf y) :
    Tracks (humAccumulator c adc tf) (exactAccumulator c x y) := by
  have pos : 0 < 32 := by norm_num
  have hh1 : Tracks (unsignedCoeff 32 c.h1) c.h1.toNat := tracks_unsigned (by norm_num) _
  have hh2 : Tracks (signedCoeff 32 c.h2) c.h2.toInt := tracks_signed (by norm_num) _
  have hh3 : Tracks (unsignedCoeff 32 c.h3) c.h3.toNat := tracks_unsigned (by norm_num) _
  have hh4 : Tracks (signedCoeff 32 c.h4) c.h4.toInt := tracks_signed (by norm_num) _
  have hh5 : Tracks (signedCoeff 32 c.h5) c.h5.toInt := tracks_signed (by norm_num) _
  have hh6 : Tracks (signedCoeff 32 c.h6) c.h6.toInt := tracks_signed (by norm_num) _
  have hv := humVar_tracks h
  have ha : Tracks (humA c adc tf) _ :=
    ((((hadc.shl pos 14).sub pos (hh4.shl pos 20)).sub pos (hh5.mul pos hv)).add pos (tracks_exact 16384)).asr 15
  have hb := (hv.mul pos hh6).asr 10
  have hc := ((hv.mul pos hh3).asr 11).add pos (tracks_exact 32768)
  have he := ((hb.mul pos hc).asr 10).add pos (tracks_exact 2097152)
  have hf : Tracks (humF c tf) _ := ((he.mul pos hh2).add pos (tracks_exact 8192)).asr 14
  have hproduct := ha.mul pos hf
  have hs := hproduct.asr 15
  exact hproduct.sub pos ((((hs.mul pos hs).asr 7).mul pos hh1).asr 4)

end

/-- The fine temperature feeds the temperature, so the stage's flag covers both. -/
theorem ovf_of_tempCentidegrees {tf : Checked} (h : (tempCentidegrees tf).ovf = false) : tf.ovf = false := by
  have pos : 0 < 32 := by norm_num
  obtain ⟨hproduct, -, -⟩ := addN_exact pos h
  obtain ⟨htf, -, -⟩ := mulN_exact pos hproduct
  exact htf

/-- Settles O19: both results track their formula. -/
theorem temperatureFormulaWithoutOverflow : Obligations.TemperatureFormulaWithoutOverflow := by
  intro c adc hovf
  have hfine := tempFine_tracks c (tracks_exact adc.toNat)
  rw [compT_ovf] at hovf
  rw [compT_tf, compT_t]
  exact ⟨hfine (ovf_of_tempCentidegrees hovf), tempCentidegrees_tracks hfine hovf⟩

/-- Settles O21: the flag of a value covers the quotient and with it the denominator; the sentinel's covers the denominator. -/
theorem pressureFormulaWithoutOverflow : Obligations.PressureFormulaWithoutOverflow := by
  intro c adc tf
  have hden := pressDenominator_tracks c (tracks_exact tf.toInt)
  refine ⟨fun p hp => ?_, fun hzero => ?_⟩
  · obtain ⟨hne, rfl, hovf⟩ := compP_eq_value hp
    have hquotient := pressQuotient_tracks c (tracks_exact (adc.toNat : Int)) (tracks_exact tf.toInt)
    obtain ⟨-, hdenovf⟩ := Bool.or_eq_false_iff.mp (ovf_of_pressFinish c hovf)
    exact ⟨hden hdenovf ▸ hne, pressFinish_tracks c hquotient hovf⟩
  · obtain ⟨hval, hovf⟩ := compP_eq_zeroDenominator hzero
    obtain ⟨-, hdenovf⟩ := Bool.or_eq_false_iff.mp hovf
    exact (hden hdenovf).symm.trans hval

/-- Settles O25: the accumulator tracks its formula, and the stage clamps and shifts it. -/
theorem humidityFormulaWithoutOverflow : Obligations.HumidityFormulaWithoutOverflow := by
  intro c adc tf hovf
  rw [compH_ovf] at hovf
  rw [compH_h, humAccumulator_tracks c (tracks_exact (adc.toNat : Int)) (tracks_exact tf.toInt) hovf]
  norm_num

end Sys2Proof.Proofs

/-! ## The readings (41_compensation.md R93, R101, R107)

A completed command passed its guards, since a guard that fails leaves SCP faulted; OUT0 then holds the stage's result whole. -/

namespace Sys2Proof.Proofs

open Sys2Proof Sys2Proof.Machine Sys2Proof.Certificates

theorem calv_of_running_withCalibration {s : State} {body : State → State} (h : Running (withCalibration s body)) :
    s.status.calv = true := by
  rcases withCalibration_cases s body with ⟨hcalv, -⟩ | ⟨-, he⟩
  · exact hcalv
  · rw [he] at h
    cases h

theorem tfv_of_running_withFineTemperature {s : State} {body : State → State} (h : Running (withFineTemperature s body)) :
    s.status.tfv = true := by
  rcases withFineTemperature_cases s body with ⟨htfv, -⟩ | ⟨-, he⟩
  · exact htfv
  · rw [he] at h
    cases h

/-- Both guards of a pressure or humidity command have passed when it completes. -/
theorem ready_of_running_guards {s : State} {body : State → State}
    (h : Running (withCalibration s fun s => withFineTemperature s body)) :
    s.status.calv = true ∧ s.status.tfv = true := by
  have hcalv := calv_of_running_withCalibration h
  rw [withCalibration_of_calv hcalv] at h
  exact ⟨hcalv, tfv_of_running_withFineTemperature h⟩

theorem eq_humidity_of_exec {i : Instr} {s t : State} (hi : mnemonicOf i ∈ ["COMPH", "COMPHR"]) (hs : Running s)
    (h : exec i s = .next t) : ∃ adc, t = humidity adc s := by
  cases i with
  | comph adc =>
    rw [exec_comph, accept_of_running hs] at h
    cases h
    exact ⟨adc, rfl⟩
  | comphr msb lsb =>
    rw [exec_comphr, accept_of_running hs] at h
    cases h
    exact ⟨adc16 msb lsb, rfl⟩
  | _ => simp [mnemonicOf] at hi

/-- A register that holds 0..102400 reads as that count of 1/1024 percent (R107). -/
theorem relativeHumidity_bounds {out0 : BitVec 64} (hlow : 0 ≤ out0.toInt) (hhigh : out0.toInt ≤ 102400) :
    out0.toNat ≤ 102400 ∧ relativeHumidity out0 * 1024 = out0.toNat ∧
      0 ≤ relativeHumidity out0 ∧ relativeHumidity out0 ≤ 100 := by
  have hnat : out0.toInt = out0.toNat :=
    BitVec.toInt_eq_toNat_of_msb (by rw [BitVec.msb_eq_toInt, decide_eq_false_iff_not]; omega)
  have hbound : out0.toNat ≤ 102400 := by omega
  have hrat : (out0.toNat : Rat) ≤ 102400 := by exact_mod_cast hbound
  rw [relativeHumidity, hnat, Int.cast_natCast]
  refine ⟨hbound, div_mul_cancel₀ _ (by norm_num), by positivity, ?_⟩
  rw [div_le_iff₀ (by norm_num)]
  linarith

/-- Settles O27: OUT0 is the clamped and shifted accumulator, whatever the operands were. -/
theorem humidityReadingWithinBounds : Obligations.HumidityReadingWithinBounds := by
  intro i s t hi hs h ht
  obtain ⟨adc, rfl⟩ := eq_humidity_of_exec hi hs h
  obtain ⟨hcalv, htfv⟩ := ready_of_running_guards ht
  obtain ⟨hlow, hhigh⟩ := compH_h_bounds s.cal (code adc) (fine32 s.tFine)
  rw [← sext_compH_toInt] at hlow hhigh
  rw [humidity_ready hcalv htfv]
  exact relativeHumidity_bounds hlow hhigh

/-- Settles O51: the registers hold t and p whole, and the readings divide by their scale. -/
theorem readingsAreTheExactRationals : Obligations.ReadingsAreTheExactRationals := by
  refine ⟨fun adc s t hs h ht => ?_, fun adc s t p ovf hs h ht hp => ?_⟩
  · have hcalv : s.status.calv = true := by
      rw [exec_compt, accept_of_running hs] at h
      cases h
      exact calv_of_running_withCalibration ht
    rw [exec_compt_calibrated hs hcalv] at h
    cases h
    rw [celsius, State.writeTemperature_out0, sext_toInt_of_fits32 (compT_t_fits _ _), div_mul_cancel₀ _ (by norm_num)]
  · obtain ⟨hcalv, htfv⟩ : s.status.calv = true ∧ s.status.tfv = true := by
      rw [exec_compp, accept_of_running hs] at h
      cases h
      exact ready_of_running_guards ht
    rw [exec_compp_ready hs hcalv htfv adc hp] at h
    cases h
    rw [pascals, pressureOutcome, State.writePressure_out0, sext_compP_toInt hp, div_mul_cancel₀ _ (by norm_num)]

end Sys2Proof.Proofs

/-! ## The control commands (42_control.md R120 to R122) -/

namespace Sys2Proof.Proofs

open Sys2Proof Sys2Proof.Machine Sys2Proof.Certificates

/-! ### RESET and power-on -/

/-- The word of fields that are all 0 is computed once, in `resetStateValues`. -/
theorem statusWord_clear (s : State) : s.clear.statusWord = 0 := by
  obtain ⟨hword, -⟩ := resetStateValues
  exact hword

/-- Settles O31: RESET's effect is `State.clear`, and a power-on does it with the event taken from the host's list. -/
theorem resetClearsTheVisibleState : Obligations.ResetClearsTheVisibleState := by
  have hdecode : decode 0xF0000000 = .ok .reset := decode_encode (i := .reset) rfl
  refine ⟨hdecode, fun s => ⟨s.clear, exec_reset s, statusWord_clear s, s.clear_status, s.clear_wmask, s.clear_out0,
    s.clear_out1, s.clear_host, fun rest hhost => ?_⟩⟩
  rw [step_powerOn hhost, State.clear_withHost, State.withHost]

/-! ### TFWR -/

/-- Widening a signed immediate keeps its value, so the register holds IMM itself (R121). -/
theorem fineImmediate_toInt (imm : BitVec 28) : (fineImmediate imm).toInt = imm.toInt := by
  rw [fineImmediate, BitVec.toInt_signExtend_of_le (by decide), BitVec.toInt_signExtend_of_le (by decide)]

/-- Settles O30: the word is TFWR's own, its effect is `writeFine`, and the range is that of a signed 28-bit number. -/
theorem tfwrWritesTheImmediate : Obligations.TfwrWritesTheImmediate := by
  intro imm s hs
  have hdecode : decode (0xA#4 ++ imm) = .ok (.tfwr imm) := decode_encode (i := .tfwr imm) rfl
  have hexec : exec (.tfwr imm) s = .next (s.writeFine (fineImmediate imm)) := by
    rw [exec_tfwr, accept_of_running hs]
  have hvalue : (s.writeFine (fineImmediate imm)).tFine.toInt = imm.toInt := fineImmediate_toInt imm
  have hlow : -(2 ^ 27) ≤ imm.toInt := imm.le_toInt
  have hhigh : imm.toInt < 2 ^ 27 := imm.toInt_lt
  exact ⟨hdecode, _, hexec, hvalue, hvalue ▸ hlow, hvalue ▸ Int.le_sub_one_of_lt hhigh, rfl⟩

/-! ### NOP -/

/-- A NOP that is accepted and one that is ignored leave the same state, so being faulted makes no difference. -/
theorem exec_nop_eq_next (operand : BitVec 28) (s : State) : exec (.nop operand) s = .next s := by
  rw [exec_nop, accept, ite_self]

/-- The row of opcode 0 has no reserved field, so all its words are NOPs (30_encoding.md R64). -/
theorem decode_of_opOf_eq_zero {w : Word} (h : opOf w = 0) : decode w = .ok (.nop (w.extractLsb' 0 28)) := by
  simp only [decode, opcodeField_toNat, h]

/-- Settles O29: every word of opcode 0 is a NOP, and a NOP leaves every state as it is. -/
theorem nopDoesNothing : Obligations.NopDoesNothing := by
  refine ⟨exec_nop_eq_next, fun w s hw => ?_⟩
  rw [issueWord_ok (decode_of_opOf_eq_zero hw), exec_nop_eq_next]

end Sys2Proof.Proofs

/-! ## The faulted condition (60_exceptions.md R136, R140, R153) -/

namespace Sys2Proof.Proofs

open Sys2Proof Sys2Proof.Machine Sys2Proof.Certificates

/-- Nothing in these events takes SCP out of the faulted condition (R140). -/
abbrev NoReset (es : List HostEvent) : Prop := ∀ e ∈ es, e ≠ .powerOn ∧ e ≠ .command 0xF0000000

section
variable {s : State}

theorem faulted_of_not_running (hs : ¬Running s) : s.faulted = true := by
  rwa [← faulted_eq_false_iff, Bool.not_eq_false] at hs

/-- RESET has one word, so every other word is a command that a faulted SCP ignores or an illegal word that it ignores (R136). -/
theorem issueWord_ignored (hs : ¬Running s) {w : Word} (hw : w ≠ 0xF0000000) : issueWord w s = .next s := by
  have hf := faulted_of_not_running hs
  cases hd : decode w with
  | ok i =>
    obtain ⟨-, rfl⟩ := encode_of_decode hd
    have hreset : i ≠ .reset := by
      rintro rfl
      exact hw rfl
    rw [issueWord_ok hd, exec_faulted hf hreset]
  | error r => rw [issueWord_error hd, accept_faulted hf]

/-- A step of a faulted SCP whose next event is no reset takes the event off the host's list and does nothing else. -/
theorem step_faulted (hs : ¬Running s) (hhost : NoReset (s.host.take 1)) :
    step s = .next (s.withHost (s.host.drop 1)) := by
  cases hh : s.host with
  | nil => rw [step_idle hh, List.drop_nil, ← hh, State.withHost_self]
  | cons e rest =>
    obtain ⟨hpower, hreset⟩ := hhost e (by simp [hh])
    cases e with
    | powerOn => exact absurd rfl hpower
    | command w =>
      have hw : w ≠ 0xF0000000 := mt (congrArg HostEvent.command) hreset
      rw [step_command hh, issueWord_ignored (s := s.withHost rest) hs hw, List.drop_one, List.tail_cons]

end

/-- Settles O35: the word of RESET decodes, and any other is ignored. -/
theorem faultedIgnoresAllButReset : Obligations.FaultedIgnoresAllButReset := by
  refine fun w s hs => ⟨issueWord_ignored hs, ?_⟩
  rintro rfl
  obtain ⟨hdecode, -⟩ := resetClearsTheVisibleState
  exact issueWord_ok hdecode s

/-- Settles O36, by induction on the number of steps: each ignored step leaves SCP faulted, with the rest of the host's list. -/
theorem faultStaysUntilReset : Obligations.FaultStaysUntilReset := by
  intro n
  induction n with
  | zero => exact fun s _ _ => run_zero s
  | succ n ih =>
    intro s hs hhost
    have hfirst : NoReset (s.host.take 1) :=
      fun e he => hhost e (List.take_subset_take_left _ (by omega) he)
    have hrest : NoReset ((s.host.drop 1).take n) := by
      intro e he
      rw [List.take_drop, Nat.add_comm] at he
      exact hhost e (List.mem_of_mem_drop he)
    rw [run_succ (step_faulted hs hfirst), ih (s.withHost (s.host.drop 1)) hs hrest, State.withHost_host, List.drop_drop,
      Nat.add_comm, State.withHost]

end Sys2Proof.Proofs

/-! ## Raising a fault (60_exceptions.md R131, R133 to R135, R138)

A command that needs a calibration is one guard around its body, and one that needs a fine temperature a second guard inside it;
what the guards do settles which fault is raised, and `Effect` that nothing else changes. -/

namespace Sys2Proof.Proofs

open Sys2Proof Sys2Proof.Machine Sys2Proof.Certificates

/-! ### The guards -/

section
variable {s : State}

theorem withCalibration_of_not_calv (hcalv : s.status.calv = false) (body : State → State) :
    withCalibration s body = s.raise .noCalibration := by
  rw [withCalibration, hcalv, if_neg Bool.false_ne_true]

theorem withFineTemperature_of_not_tfv (htfv : s.status.tfv = false) (body : State → State) :
    withFineTemperature s body = s.raise .noFineTemperature := by
  rw [withFineTemperature, htfv, if_neg Bool.false_ne_true]

theorem exec_uncalibrated (hs : Running s) (hcalv : s.status.calv = false) {i : Instr} (hi : NeedsCalibration i) :
    exec i s = .next (s.raise .noCalibration) := by
  have hguard (body : State → State) : accept s (fun s => withCalibration s body) = .next (s.raise .noCalibration) := by
    rw [accept_of_running hs, withCalibration_of_not_calv hcalv]
  cases i with
  | calrd k =>
    obtain ⟨name, hname, -⟩ := ofIndex_of_le hi
    rw [exec_calrd, hname]
    exact hguard _
  | compt | compp | comph | comptr | comppr | comphr => exact hguard _
  | _ => exact hi.elim

theorem exec_without_fine (hs : Running s) (hcalv : s.status.calv = true) (htfv : s.status.tfv = false) {i : Instr}
    (hi : NeedsFine i) : exec i s = .next (s.raise .noFineTemperature) := by
  have hguard (body : State → State) :
      accept s (fun s => withCalibration s fun s => withFineTemperature s body) = .next (s.raise .noFineTemperature) := by
    rw [accept_of_running hs, withCalibration_of_calv hcalv, withFineTemperature_of_not_tfv htfv]
  cases i with
  | compp | comph | comppr | comphr => exact hguard _
  | _ => exact hi.elim

end

/-- Settles O32: the guard that fails raises its fault in the command's place. -/
theorem guardsRaiseTheirFault : Obligations.GuardsRaiseTheirFault := by
  refine fun i s hs => ⟨fun hi hcalv => ?_, fun hi hcalv htfv => ?_⟩
  · exact exec_uncalibrated hs hcalv hi
  · exact exec_without_fine hs hcalv htfv hi

/-- Settles O14: STGF, which reads as WMASK full, decides between the commit and the fault. -/
theorem calcommitNeedsEveryByte : Obligations.CalcommitNeedsEveryByte := by
  intro s hs hw
  rw [exec_calcommit, accept_of_running hs, if_neg (mt s.stgf_iff.mp hw), State.raise]

/-! ### Faults are precise -/

/-- A completed command leaves STATUS.FAULT alone, so a running SCP that ends faulted has raised a fault and done nothing else. -/
theorem eq_raise_of_exec {i : Instr} {s t : State} (hs : Running s) (h : exec i s = .next t) (ht : ¬Running t) :
    ∃ f, t = s.raise f := by
  cases exec_effect h with
  | ignored hn => exact absurd hs hn
  | fault => exact ⟨_, rfl⟩
  | reset => exact absurd rfl ht
  | _ => exact absurd hs ht

/-- Settles O34: an illegal word raises its fault itself, and any other word does what its command does. -/
theorem faultsArePrecise : Obligations.FaultsArePrecise := by
  refine ⟨fun w s t hs h ht => ?_, fun i s t hs h ht => ?_⟩
  · cases hd : decode w with
    | ok i =>
      rw [issueWord_ok hd] at h
      obtain ⟨f, rfl⟩ := eq_raise_of_exec hs h ht
      rfl
    | error r =>
      rw [issueWord_error hd, accept_of_running hs] at h
      cases h
      rfl
  · obtain ⟨f, rfl⟩ := eq_raise_of_exec hs h ht
    rfl

/-! ### The first check that fails -/

section
variable (s : State)

theorem withCalibration_fault (body : State → State) :
    (withCalibration s body).status.fault =
      if s.status.calv = false then some .noCalibration else (body s).status.fault := by
  rcases withCalibration_cases s body with ⟨hcalv, he⟩ | ⟨hcalv, he⟩ <;> simp [he, hcalv]

theorem withFineTemperature_fault (body : State → State) :
    (withFineTemperature s body).status.fault =
      if s.status.tfv = false then some .noFineTemperature else (body s).status.fault := by
  rcases withFineTemperature_cases s body with ⟨htfv, he⟩ | ⟨htfv, he⟩ <;> simp [he, htfv]

end

section
variable {s t : State} {w : Word} {i : Instr}

theorem temperature_fault (hs : Running s) (adc : BitVec 20) :
    (temperature adc s).status.fault = if s.status.calv = false then some .noCalibration else none := by
  rw [temperature, withCalibration_fault]
  exact congrArg (ite _ _) hs

theorem humidity_fault (hs : Running s) (adc : BitVec 16) :
    (humidity adc s).status.fault =
      if s.status.calv = false then some .noCalibration
      else if s.status.tfv = false then some .noFineTemperature else none := by
  rw [humidity, withCalibration_fault, withFineTemperature_fault]
  exact congrArg (fun r => ite _ _ (ite _ _ r)) hs

theorem pressure_fault (hs : Running s) (adc : BitVec 20) :
    (pressure adc s).status.fault =
      if s.status.calv = false then some .noCalibration
      else if s.status.tfv = false then some .noFineTemperature
      else if Overflows s adc.toNat then some .divOverflow else none := by
  rw [pressure, withCalibration_fault, withFineTemperature_fault, code_eq (by norm_num), fine64]
  have hdiv : Overflows s adc.toNat ↔ compP s.cal (exact adc.toNat) (exact s.tFine.toInt) = .divOverflow :=
    (compP_eq_divOverflow_iff _ _ _).symm
  simp only [hdiv]
  cases compP s.cal (exact adc.toNat) (exact s.tFine.toInt) <;> simp [hs]

theorem pressureCode_of_compp {adc : BitVec 20} (h : decode w = .ok (.compp adc)) : pressureCode w = adc.toNat := by
  have hop : opOf w = 5 := opOf_of_decode h
  obtain ⟨-, rfl⟩ := encode_of_decode h
  have hadc := adc.isLt
  rw [pressureCode, if_pos hop, encode_toNat, wordNumber]
  omega

theorem pressureCode_of_comppr {msb lsb xlsb : Byte} (h : decode w = .ok (.comppr msb lsb xlsb)) :
    pressureCode w = (adc20 msb lsb xlsb).toNat := by
  obtain ⟨hcode, -⟩ := rawCodesAssembleMsbFirst
  have hop : opOf w = 8 := opOf_of_decode h
  obtain ⟨-, rfl⟩ := encode_of_decode h
  have hmsb := msb.isLt
  have hlsb := lsb.isLt
  have hxlsb := xlsb.isLt
  rw [pressureCode, if_neg (by omega), encode_toNat, wordNumber, hcode]
  omega

theorem accept_fault (hs : Running s) {body : State → State} (h : accept s body = .next t) :
    t.status.fault = (body s).status.fault := by
  rw [accept_of_running hs] at h
  cases h
  rfl

/-- A legal word's OP says which lines of R138's list apply to it, and they are the checks its command makes, in that order. -/
theorem fault_of_exec (hd : decode w = .ok i) (hs : Running s) (h : exec i s = .next t) :
    t.status.fault = expectedFault w s := by
  have hlegal : ¬IllegalWord w := (decode_isOk_iff w).mp ⟨i, hd⟩
  rw [expectedFault, if_neg hlegal, opOf_of_decode hd]
  cases i with
  | nop | calwr | tfwr =>
    simp only [exec_nop, exec_calwr, exec_tfwr] at h
    simp [accept_fault hs h, Laws.OpcodeField.opcode, hs]
  | calcommit =>
    rw [exec_calcommit] at h
    rw [accept_fault hs h]
    split
    next hg => simp [Laws.OpcodeField.opcode, s.stgf_iff.mp hg, hs]
    next hg => simpa [Laws.OpcodeField.opcode] using mt s.stgf_iff.mpr hg
  | calrd k =>
    obtain ⟨hwf, -⟩ := encode_of_decode hd
    obtain ⟨name, hname, -⟩ := ofIndex_of_le (of_decide_eq_true hwf)
    rw [exec_calrd, hname] at h
    simp [accept_fault hs h, Laws.OpcodeField.opcode, withCalibration_fault, hs]
  | compt | comptr => simp [accept_fault hs h, Laws.OpcodeField.opcode, temperature_fault hs]
  | comph | comphr => simp [accept_fault hs h, Laws.OpcodeField.opcode, humidity_fault hs]
  | compp => simp [accept_fault hs h, Laws.OpcodeField.opcode, pressure_fault hs, pressureCode_of_compp hd]
  | comppr => simp [accept_fault hs h, Laws.OpcodeField.opcode, pressure_fault hs, pressureCode_of_comppr hd]
  | reset =>
    cases h
    simp [Laws.OpcodeField.opcode, Status.zero]

end

/-- Settles O33: an illegal word is the list's first line, a legal word's lines are its command's checks, and a faulted SCP ignores
every word but RESET's. -/
theorem faultPriorityIsTheListed : Obligations.FaultPriorityIsTheListed := by
  intro w s
  obtain ⟨t, ht⟩ := issueWord_answers w s
  refine ⟨t, ht, fun hs => ?_, fun hs hw => ?_⟩
  · by_cases hillegal : IllegalWord w
    · obtain ⟨-, hraises⟩ := illegalWordsRaiseIllegalCommand
      obtain ⟨hraise, -⟩ := hraises w s hillegal
      rw [hraise hs] at ht
      cases ht
      rw [expectedFault, if_pos hillegal]
    · obtain ⟨i, hd⟩ := (decode_isOk_iff w).mpr hillegal
      rw [issueWord_ok hd] at ht
      exact fault_of_exec hd hs ht
  · rw [issueWord_ignored hs hw] at ht
    cases ht
    rfl

end Sys2Proof.Proofs

/-! ## The machine at rest and at its next word (70_reset_and_hazards.md R160, 10_state.md R31) -/

namespace Sys2Proof.Proofs

open Sys2Proof Sys2Proof.Machine Sys2Proof.Certificates

/-- All 32 bits of a word that is placed are the word. -/
theorem withFetchWord_toNat (s : State) (w : Word) : s.withFetchWord 32 w.toNat = s.issueFirst w := by
  rw [State.withFetchWord, Nat.mod_eq_of_lt w.isLt, BitVec.ofNat_toNat, BitVec.setWidth_eq]

/-- The word issued first is the one received, on a state whose host has the rest still to do. -/
theorem step_issueFirst (s : State) (w : Word) : step (s.issueFirst w) = issueWord w s := by
  rw [step_command (s := s.issueFirst w) rfl, State.issueFirst, State.withHost_withHost, State.withHost_self]

/-- Settles O38: an idle step is `step_idle`, and a placed word is the one issued first. -/
theorem stepWaitsForTheHost : Obligations.StepWaitsForTheHost := by
  refine ⟨fun _ => step_idle, fun s w i hd => ?_⟩
  rw [withFetchWord_toNat, step_issueFirst, issueWord_ok hd]

/-- Settles O41, clause by clause: the staging memory has no cell, T_FINE is 0, and no flag or fault is set. -/
theorem invariantAtReset : Obligations.InvariantAtReset where
  memory := rfl
  fine := by decide
  packed := nofun
  clamp := nofun
  cause := trivial

end Sys2Proof.Proofs
